-- ==== Sys2Proof/Word.lean ====
section
/-! DEFINITION. The value types of the core: fixed-width bit vectors, bit 0 least significant
(00_scope.md R2, R4). Their conversions (R5, R6) and the width adjustment `fit` (R53) are in
Machine/Bits.lean. -/

namespace Sys2Proof

/-- A value of the data width W = 8 (00_scope.md R2): BUS, A, B, IR, OUT, a memory cell. -/
abbrev Byte := BitVec 8

/-- A value of the address width A = 4, which is also the opcode width W - A (00_scope.md R2):
PC, MAR, the two fields of an instruction word. -/
abbrev Nibble := BitVec 4

/-- A micro-step index. Three bits, since the ROM has eight step slots per opcode
(10_state.md R18, 30_encoding.md R48). -/
abbrev StepIndex := BitVec 3

end Sys2Proof
end

