-- ==== Sys2Proof/Machine/Bits.lean ====
section
/-! DEFINITION. Bits, conversions and the width adjustment `fit` (00_scope.md R4 to R6, 40_bus_register_fit.md
R53). -/

namespace Sys2Proof.Machine

/-- The bits of a vector, index 0 first (00_scope.md R4). -/
def bits {n : Nat} (v : BitVec n) : List Bool := (List.range n).map v.getLsbD

/-- The unsigned value of a sequence of bits, `Σ bit[k]·2^k` (00_scope.md R5). -/
def bitsToNat : List Bool → Nat
  | [] => 0
  | b :: rest => if b then 2 * bitsToNat rest + 1 else 2 * bitsToNat rest

/-- `toInt` (00_scope.md R5). -/
def toInt {n : Nat} (v : BitVec n) : Nat := bitsToNat (bits v)

/-- The vector of width `n` with the given bits, index 0 first. -/
def fromBits (n : Nat) (bs : List Bool) : BitVec n := BitVec.ofNat n (bitsToNat bs)

/-- `fromInt_n` (00_scope.md R5): bit `k` is `floor(i / 2^k) mod 2`. -/
def fromInt (n i : Nat) : BitVec n := fromBits n ((List.range n).map fun k => decide (i / 2 ^ k % 2 = 1))

/-- `fit(source, width, default)`: the low bits of the source, the rest filled with the default
(40_bus_register_fit.md R53). Every transfer of this hardware leaves the default at `false` (decision D19, log
entry 17). -/
def fit {m : Nat} (n : Nat) (v : BitVec m) (fill : Bool := false) : BitVec n :=
  fromBits n ((List.range n).map fun k => if k < m then v.getLsbD k else fill)

/-- The textual form of a vector: characters `0` and `1`, most significant first (00_scope.md R6). -/
def toText {n : Nat} (v : BitVec n) : List Char := (bits v).reverse.map fun b => if b then '1' else '0'

/-- The bits a text spells, in the order of its characters; none if a character is neither `0` nor `1`. -/
def textBits : List Char → Option (List Bool)
  | [] => some []
  | c :: rest =>
    match textBits rest with
    | none => none
    | some bs => if c = '1' then some (true :: bs) else if c = '0' then some (false :: bs) else none

/-- `fromString` at width `n` (00_scope.md R6): a "fixed-width bit string" of exactly `n` characters. -/
def fromText (n : Nat) (t : List Char) : Option (BitVec n) :=
  match textBits t with
  | some bs => if bs.length = n then some (fromBits n bs.reverse) else none
  | none => none

end Sys2Proof.Machine
end

