-- ==== Sys2Proof/Machine/State.lean ====
section
/-! DEFINITION. The state of the core: the eleven elements of 10_state.md R8 and nothing else, its reset value
(R24), and the reasons a step can stop. -/

namespace Sys2Proof.Machine

/-- The memory as plain data: pairs of cell number and contents, in the canonical form `Memory.wf`
(Machine/Ops.lean). What an unlisted cell holds is `Memory.unlisted` there. -/
abbrev Memory := List Host.Cell

/-- The complete state of the core (10_state.md R8). -/
structure State where
  /-- BUS, the shared data bus value (R9). -/
  bus : Byte
  /-- PC, the program counter (R10). -/
  pc : Nibble
  /-- MAR, the memory address register (R11). -/
  mar : Nibble
  /-- MEM, sixteen cells (R12). -/
  mem : Memory
  /-- A, the first ALU input register and accumulator (R13). -/
  a : Byte
  /-- B, the second ALU input register (R14). -/
  b : Byte
  /-- IR, the instruction register (R16). -/
  ir : Byte
  /-- OUT, the output register (R17). -/
  out : Byte
  /-- s, the index of the next micro-step (R18). -/
  stepCounter : StepIndex
  /-- halt, the Clock's flag (R19). -/
  halt : Bool
  /-- LOG, the values OUT_IN has emitted, oldest first (R21). -/
  log : List Nat
deriving DecidableEq, Repr

/-- Why a step stops with a fault: never. "By design every operation is total over its input domain"; "a model's
step function therefore has no fault outcome" (60_exceptions.md R94, R95, R96). The type has no constructor, so
that no claim can have a fault in it. -/
inductive Fault where
deriving DecidableEq, Repr

/-- Why a step has no meaning. -/
inductive Refusal where
  /-- Raised by an arm of `exec` that has no meaning yet (none has: log entry 16). Safe: the model stops. -/
  | notModelled (mnemonic : String)
  /-- Raised by `Session.edge` (Machine/Ports.lean) alone, when the host asserts the loader port after the run
  has started: "the host must not make one. A model gives the host no such move" (70_reset_and_hazards.md R117).
  No step and no instruction raises it. Safe: the model stops where the source says nothing. -/
  | loaderAfterStart
deriving DecidableEq, Repr

/-- The machine right after reset (10_state.md R24). `halt`, `pc` and `stepCounter` are required by the source;
the other zeros are the spec's decisions D8 and D9 (log entries 7 and 8). -/
def State.reset : State where
  bus := 0
  pc := 0
  mar := 0
  mem := []
  a := 0
  b := 0
  ir := 0
  out := 0
  stepCounter := 0
  halt := false
  log := []

end Sys2Proof.Machine
end

