-- ==== Sys2Proof/Machine/Ops.lean ====
section
/-! DEFINITION. The named operations over memory, the bus and the registers that every control signal is an
instance of: MemRead and MemWrite (20_memory.md section 5), the generic register's In and Out
(40_bus_register_fit.md R54, R55) and the output event (10_state.md R21).

There is no operation that takes an exception and none that returns from one: the machine has neither
(60_exceptions.md R96, R99, R100). -/

namespace Sys2Proof.Machine

/-! ## Memory -/

/-- What a cell that is not listed holds: zero, the reset contents (10_state.md R24, decision D9, log entry 8). -/
def Memory.unlisted : Byte := 0

/-- The contents of cell `k`. -/
def Memory.cell : Memory → Nat → Byte
  | [], _ => Memory.unlisted
  | (j, v) :: rest, k => if j = k then v else Memory.cell rest k

/-- `MemRead(a, 1)` (20_memory.md section 5). -/
def Memory.read (m : Memory) (a : Nibble) : Byte := Memory.cell m a.toNat

/-- The memory without an entry for cell `k`. -/
def Memory.erase : Memory → Nat → Memory
  | [], _ => []
  | (j, v) :: rest, k => if j = k then Memory.erase rest k else (j, v) :: Memory.erase rest k

/-- An entry put before the first entry of a higher cell. -/
def Memory.insert : Memory → Nat → Byte → Memory
  | [], k, v => [(k, v)]
  | (j, w) :: rest, k, v => if k < j then (k, v) :: (j, w) :: rest else (j, w) :: Memory.insert rest k v

/-- `MemWrite(a, 1, v)` (20_memory.md section 5). Writing what an unlisted cell holds removes the entry, so that
equal memories are equal data. -/
def Memory.write (m : Memory) (a : Nibble) (v : Byte) : Memory :=
  if v = Memory.unlisted then Memory.erase m a.toNat
  else Memory.insert (Memory.erase m a.toNat) a.toNat v

/-- The entries are of cells from `lo` up to 15, rising, and none holds what an unlisted cell holds. -/
def Memory.wfFrom : Nat → Memory → Bool
  | _, [] => true
  | lo, (j, v) :: rest =>
    decide (lo ≤ j) && decide (j < 16) && decide (v ≠ Memory.unlisted) && Memory.wfFrom (j + 1) rest

/-- The canonical form of a memory of sixteen cells (20_memory.md R28; log entry 9). -/
def Memory.wf (m : Memory) : Bool := Memory.wfFrom 0 m

/-! ## The bus and the registers -/

/-- What a register of width `n` latches on its In: `fit_n(BUS)` (40_bus_register_fit.md R54). -/
def State.busIn (s : State) (n : Nat) : BitVec n := fit n s.bus

/-- A register's Out: `BUS <- fit_8(R)`, with `R` a stored or a derived value (40_bus_register_fit.md R55). -/
def State.drive (s : State) {n : Nat} (v : BitVec n) : State := { s with bus := fit 8 v }

/-- The contents of the cell MAR selects: `MEM[MAR]` (42_ram.md R67). -/
def State.selected (s : State) : Byte := s.mem.read s.mar

/-- One cell of memory written, nothing else: MemWrite on the state. -/
def State.writeCell (s : State) (a : Nibble) (v : Byte) : State := { s with mem := s.mem.write a v }

/-- `emit(n)`: one unsigned integer appended to LOG (10_state.md R21). -/
def State.emit (s : State) (n : Nat) : State := { s with log := s.log ++ [n] }

end Sys2Proof.Machine
end

