-- ==== Sys2Proof/Machine/Alu.lean ====
section
/-! DEFINITION. The ALU: its two input registers and the ripple-carry adder/subtractor (43_alu.md). -/

namespace Sys2Proof.Machine

/-- The chain of full adders of 43_alu.md R72, bit 0 first: the result bits and the carry out of the last one. -/
def fullAdders : Bool → List (Bool × Bool) → List Bool × Bool
  | c, [] => ([], c)
  | c, (x, y) :: rest =>
    let tail := fullAdders ((c && x) || (c && y) || (x && y)) rest
    (((x ^^ y) ^^ c) :: tail.1, tail.2)

/-- The eight full adders of `Compute(subtract)` on A and B: `b'[k] = subtract XOR B[k]`, `c[0] = subtract`
(43_alu.md R72). -/
def adderChain (subtract : Bool) (a b : Byte) : List Bool × Bool :=
  fullAdders subtract ((bits a).zip ((bits b).map fun y => subtract ^^ y))

/-- `Compute(subtract)`: the chain's result bits; the carry out of bit 7 is discarded (43_alu.md R72). -/
def aluCompute (subtract : Bool) (a b : Byte) : Byte := fromBits 8 (adderChain subtract a b).1

/-- A_IN: `A <- BUS` (43_alu.md R68). -/
def aIn (s : State) : State := { s with a := s.busIn 8 }

/-- A_OUT: `BUS <- A` (43_alu.md R69). -/
def aOut (s : State) : State := s.drive s.a

/-- B_IN: `B <- BUS` (43_alu.md R70). -/
def bIn (s : State) : State := { s with b := s.busIn 8 }

/-- B_OUT: `BUS <- B` (43_alu.md R71). -/
def bOut (s : State) : State := s.drive s.b

/-- ALU_OUT: `BUS <- Compute(false)` on the A and B of the moment (43_alu.md R73, R76). -/
def aluOut (s : State) : State := s.drive (aluCompute false s.a s.b)

/-- ALU_SUB_OUT: `BUS <- Compute(true)` (43_alu.md R74). -/
def aluSubOut (s : State) : State := s.drive (aluCompute true s.a s.b)

/-- The opcode-table row A_IN. -/
def execAIn (s : State) : Host.Outcome State Fault Refusal := .next (aIn s)

/-- The opcode-table row A_OUT. -/
def execAOut (s : State) : Host.Outcome State Fault Refusal := .next (aOut s)

/-- The opcode-table row B_IN. -/
def execBIn (s : State) : Host.Outcome State Fault Refusal := .next (bIn s)

/-- The opcode-table row B_OUT. -/
def execBOut (s : State) : Host.Outcome State Fault Refusal := .next (bOut s)

/-- The opcode-table row ALU_OUT. -/
def execAluOut (s : State) : Host.Outcome State Fault Refusal := .next (aluOut s)

/-- The opcode-table row ALU_SUB_OUT. -/
def execAluSubOut (s : State) : Host.Outcome State Fault Refusal := .next (aluSubOut s)

end Sys2Proof.Machine
end

