-- ==== Sys2Proof/Machine/Flags.lean ====
section
/-! DEFINITION. The flags. There are no condition codes: the carry out of the adder is discarded and nothing
records it (10_state.md R22, 43_alu.md R72). The only flag is halt (10_state.md R19). -/

namespace Sys2Proof.Machine

/-- The Clock's `Halt()`: "sets the flag true (idempotent)" (44_sequencer.md R82). -/
def State.assertHalt (s : State) : State := { s with halt := true }

/-- The Clock's `IsRunning()`: "returns `not flag`" (44_sequencer.md R81). -/
def State.isRunning (s : State) : Bool := !s.halt

end Sys2Proof.Machine
end

