-- ==== Sys2Proof/Syntax.lean ====
section
/-! DEFINITION. What the core executes, at its two levels (30_encoding.md): the sixteen control signals of the
micro level (R47) and the instruction words of the macro level (R41 to R46), one constructor of `Instr` for each
row of spec/opcode_table.json. -/

namespace Sys2Proof

/-- The sixteen control signals, in the order of their ids (30_encoding.md R47). -/
inductive Signal where
  | pcOut | pcIn | pcInc | marIn | ramIn | ramOut | irIn | irOut
  | aIn | aOut | bIn | bOut | aluOut | aluSubOut | outIn | halt
deriving DecidableEq, Repr

/-- All sixteen signals, in the order of their ids. -/
def Signal.all : List Signal :=
  [.pcOut, .pcIn, .pcInc, .marIn, .ramIn, .ramOut, .irIn, .irOut,
   .aIn, .aOut, .bIn, .bOut, .aluOut, .aluSubOut, .outIn, .halt]

/-- The class of a control signal (00_scope.md section 9, the column "class" of 30_encoding.md R47). -/
inductive SignalClass where
  | /-- writes BUS -/ producer
  | /-- reads BUS -/ consumer
  | /-- neither reads nor writes BUS -/ busFree
deriving DecidableEq, Repr

/-- The class column of 30_encoding.md R47. -/
def Signal.cls : Signal → SignalClass
  | .pcOut | .ramOut | .irOut | .aOut | .bOut | .aluOut | .aluSubOut => .producer
  | .pcIn | .marIn | .ramIn | .irIn | .aIn | .bIn | .outIn => .consumer
  | .pcInc | .halt => .busFree

/-- The rows of spec/opcode_table.json.

The instruction words (30_encoding.md R44, R45) carry the low four bits of their word: for LDA and ADD that is the
operand, an absolute cell address (R43); for OUT, HLT and the unmapped opcodes it is ignored by the machine (R46)
but stays readable in IR, so that no bit of a word is lost. The control signals have no operand. -/
inductive Instr where
  -- 45_instructions.md R88 to R91: the demonstration set
  | lda (addr : Nibble)
  | add (addr : Nibble)
  | out (low : Nibble)
  | hlt (low : Nibble)
  -- 45_instructions.md R92: the twelve opcodes without execute steps
  | unmapped0 (low : Nibble)
  | unmapped3 (low : Nibble)
  | unmapped4 (low : Nibble)
  | unmapped5 (low : Nibble)
  | unmapped6 (low : Nibble)
  | unmapped7 (low : Nibble)
  | unmapped8 (low : Nibble)
  | unmapped9 (low : Nibble)
  | unmapped10 (low : Nibble)
  | unmapped11 (low : Nibble)
  | unmapped12 (low : Nibble)
  | unmapped13 (low : Nibble)
  -- 30_encoding.md R47: the control signals
  | pcOut
  | pcIn
  | pcInc
  | marIn
  | ramIn
  | ramOut
  | irIn
  | irOut
  | aIn
  | aOut
  | bIn
  | bOut
  | aluOut
  | aluSubOut
  | outIn
  | halt
deriving DecidableEq, Repr

/-- A control signal as a row of the opcode table. -/
def Signal.toInstr : Signal → Instr
  | .pcOut => .pcOut
  | .pcIn => .pcIn
  | .pcInc => .pcInc
  | .marIn => .marIn
  | .ramIn => .ramIn
  | .ramOut => .ramOut
  | .irIn => .irIn
  | .irOut => .irOut
  | .aIn => .aIn
  | .aOut => .aOut
  | .bIn => .bIn
  | .bOut => .bOut
  | .aluOut => .aluOut
  | .aluSubOut => .aluSubOut
  | .outIn => .outIn
  | .halt => .halt

end Sys2Proof
end

