-- ==== Sys2Proof/Config.lean ====
section
/-! DEFINITION. The configuration of a core: what is fixed before a run and never changed during it
(00_scope.md R3, 10_state.md R20). It is no part of State. The reference value is in Machine/Microcode.lean. -/

namespace Sys2Proof

/-- The control matrix M: an ordered list of control signals, of any length, for each opcode and micro-step
(30_encoding.md R48). Entries at steps `k ≥ S` are never read (93_implementation_defined.md U17). -/
abbrev ControlMatrix := Nibble → StepIndex → List Signal

/-- The two configuration values of 00_scope.md R3. -/
structure Config where
  /-- S, the number of micro-steps in every instruction cycle, the same for every opcode. -/
  steps : Nat
  /-- M, the control matrix. -/
  matrix : ControlMatrix

end Sys2Proof
end

