-- ==== Sys2Proof/WellFormed.lean ====
section
/-! DEFINITION. The checks the spec puts on what is given to the core: a configuration's step count
(00_scope.md R3), the optional predicate on matrices (70_reset_and_hazards.md R120), and the capacity of a ROM
word (30_encoding.md R49). The hardware checks none of them (44_sequencer.md R85). -/

namespace Sys2Proof

/-- Every instruction word is an instruction and no operand value is illegal: "all 256 instruction words are
accounted for" (30_encoding.md R45), and the operand's type is the four bits of its field. So there is nothing
to check (log entry 25). -/
def Instr.wf : Instr → Bool
  | .lda _ | .add _ | .out _ | .hlt _ => true
  | .unmapped0 _ | .unmapped3 _ | .unmapped4 _ | .unmapped5 _ | .unmapped6 _ | .unmapped7 _ => true
  | .unmapped8 _ | .unmapped9 _ | .unmapped10 _ | .unmapped11 _ | .unmapped12 _ | .unmapped13 _ => true
  | .pcOut | .pcIn | .pcInc | .marIn | .ramIn | .ramOut | .irIn | .irOut => true
  | .aIn | .aOut | .bIn | .bOut | .aluOut | .aluSubOut | .outIn | .halt => true

/-- The step count is in its range, `5 ≤ S ≤ 8` (00_scope.md R3). -/
def Config.wf (c : Config) : Bool :=
  decide (5 ≤ c.steps) && decide (c.steps ≤ 8)

/-- A list fits one ROM word, which has four slots (30_encoding.md R49, the parameter L). -/
def fitsRomWord (l : List Signal) : Bool :=
  decide (l.length ≤ 4)

/-- The fetch list of micro-step 0 (44_sequencer.md R80). -/
def fetchStep0 : List Signal := [.pcOut, .marIn]

/-- The fetch list of micro-step 1 (44_sequencer.md R80). -/
def fetchStep1 : List Signal := [.ramOut, .irIn, .pcInc]

/-- No signal of the list is of the class `k`. -/
def noneOf (k : SignalClass) (l : List Signal) : Bool :=
  l.all fun σ => decide (σ.cls ≠ k)

/-- The list has at most one producer, it stands before every consumer of the list, and without a producer
there is no consumer (70_reset_and_hazards.md R120): signals that do not touch the bus, then one producer, then
no further producer; or neither producer nor consumer. -/
def orderedList : List Signal → Bool
  | [] => true
  | σ :: rest =>
    match σ.cls with
    | .producer => noneOf .producer rest
    | .consumer => false
    | .busFree => orderedList rest

/-- The predicate on matrices of 70_reset_and_hazards.md R120, over the `S` steps that are read: every list is
ordered, and steps 0 and 1 of all sixteen rows are the fetch lists. -/
def Config.disciplined (c : Config) : Bool :=
  (List.range 16).all fun op =>
    decide (c.matrix (BitVec.ofNat 4 op) 0 = fetchStep0) &&
    decide (c.matrix (BitVec.ofNat 4 op) 1 = fetchStep1) &&
    (List.range c.steps).all fun k => orderedList (c.matrix (BitVec.ofNat 4 op) (BitVec.ofNat 3 k))

end Sys2Proof
end

