-- ==== Sys2Proof/Decode.lean ====
section
/-! DEFINITION. Decoding and encoding, from the encoding tables of 30_encoding.md: the 8-bit instruction word
(R41 to R46), the 5-bit slot of a control signal and the 20-bit ROM word of four slots (R47, R49). -/

namespace Sys2Proof

/-! ## Fields -/

/-- The opcode field of an instruction word, bits 7 to 4 (30_encoding.md R41, R42). -/
def opcodeOf (w : Byte) : Nibble := w.extractLsb' 4 4

/-- The address field of an instruction word, bits 3 to 0 (30_encoding.md R41, R43). -/
def addrOf (w : Byte) : Nibble := w.extractLsb' 0 4

/-- The instruction word with the given two fields (30_encoding.md R41). -/
def cellWord (op low : Nibble) : Byte := op ++ low

/-! ## What is decoded, and why a decoding is rejected -/

/-- The bits of one encoded row of the opcode table: a memory cell, or one slot of a ROM word. -/
inductive Code where
  | cell (w : Byte)
  | slot (w : BitVec 5)
deriving DecidableEq, Repr

/-- Why bits give no instruction. -/
inductive DecodeError where
  /-- There is no byte to decode. -/
  | noCell
  /-- No row of the opcode map has this word. By 30_encoding.md R45 there is no such word. -/
  | unknownWord
  /-- The slot's `valid` bit is 0: the sequencer skips it (30_encoding.md R49). -/
  | emptySlot
deriving DecidableEq, Repr

/-! ## The instruction word -/

/-- One row of the opcode map of 30_encoding.md R44 and R45, with the match and mask the spec writes. -/
structure CellRow where
  mask : Byte
  pattern : Byte
  build : Nibble → Instr

/-- The opcode map: R44, then R45. -/
def cellRows : List CellRow :=
  [⟨0xF0, 0x10, .lda⟩, ⟨0xF0, 0x20, .add⟩, ⟨0xF0, 0xE0, .out⟩, ⟨0xF0, 0xF0, .hlt⟩,
   ⟨0xF0, 0x00, .unmapped0⟩, ⟨0xF0, 0x30, .unmapped3⟩, ⟨0xF0, 0x40, .unmapped4⟩, ⟨0xF0, 0x50, .unmapped5⟩,
   ⟨0xF0, 0x60, .unmapped6⟩, ⟨0xF0, 0x70, .unmapped7⟩, ⟨0xF0, 0x80, .unmapped8⟩, ⟨0xF0, 0x90, .unmapped9⟩,
   ⟨0xF0, 0xA0, .unmapped10⟩, ⟨0xF0, 0xB0, .unmapped11⟩, ⟨0xF0, 0xC0, .unmapped12⟩, ⟨0xF0, 0xD0, .unmapped13⟩]

/-- The row of the opcode map a word falls under. -/
def CellRow.covers (r : CellRow) (w : Byte) : Bool := w &&& r.mask == r.pattern

/-- The instruction a memory cell holds (30_encoding.md R42 to R45). -/
def decodeCell (w : Byte) : Except DecodeError Instr :=
  match cellRows.find? (·.covers w) with
  | some r => .ok (r.build (addrOf w))
  | none => .error .unknownWord

/-- The first instruction of a sequence of bytes and the rest: every instruction is one cell long
(30_encoding.md R52). -/
def decodeBytes : List Byte → Except DecodeError (Instr × List Byte)
  | [] => .error .noCell
  | w :: rest =>
    match decodeCell w with
    | .ok i => .ok (i, rest)
    | .error e => .error e

/-! ## The control signal and the ROM word -/

/-- The 4-bit number of a control signal (30_encoding.md R47, first column). -/
def Signal.id : Signal → BitVec 4
  | .pcOut => 0
  | .pcIn => 1
  | .pcInc => 2
  | .marIn => 3
  | .ramIn => 4
  | .ramOut => 5
  | .irIn => 6
  | .irOut => 7
  | .aIn => 8
  | .aOut => 9
  | .bIn => 10
  | .bOut => 11
  | .aluOut => 12
  | .aluSubOut => 13
  | .outIn => 14
  | .halt => 15

/-- The control signal a slot names: bit 4 is `valid`, bits 3 to 0 the id (30_encoding.md R49). A slot that is
not valid names none. -/
def decodeSlot (w : BitVec 5) : Except DecodeError Signal :=
  if w.getLsbD 4 then
    match Signal.all.find? (fun σ => σ.id == w.extractLsb' 0 4) with
    | some σ => .ok σ
    | none => .error .unknownWord
  else .error .emptySlot

/-- The slot of a control signal, `valid` set (30_encoding.md R49). -/
def encodeSlot (σ : Signal) : BitVec 5 := (1 : BitVec 1) ++ σ.id

/-- Slot `j` of a ROM word is bits `5j+4` to `5j` (30_encoding.md R49). -/
def romSlot (w : BitVec 20) (j : Nat) : BitVec 5 := w.extractLsb' (5 * j) 5

/-- The list of signals a ROM word holds: slot 0 first, every slot that is not valid skipped
(30_encoding.md R49). -/
def decodeRomWord (w : BitVec 20) : List Signal :=
  (List.range 4).filterMap fun j => (decodeSlot (romSlot w j)).toOption

/-- The slots of a list from slot 0 up, as one number. -/
def romNumber : List Signal → Nat
  | [] => 0
  | σ :: rest => (encodeSlot σ).toNat + 32 * romNumber rest

/-- The canonical ROM word of a list: its signals in slots 0 to n - 1, zero in the rest. A list longer than four
cannot be written in the image (30_encoding.md R49, 93_implementation_defined.md U17). -/
def encodeRomWord (l : List Signal) : Option (BitVec 20) :=
  if fitsRomWord l then some (BitVec.ofNat 20 (romNumber l)) else none

/-- The ROM address of an entry, `8·op + k`, seven bits (30_encoding.md R48). -/
def romAddress (op : Nibble) (k : StepIndex) : BitVec 7 := op ++ k

/-- The control matrix a ROM image holds (30_encoding.md R48, R49). -/
def matrixOfRom (rom : BitVec 7 → BitVec 20) : ControlMatrix :=
  fun op k => decodeRomWord (rom (romAddress op k))

/-! ## Both levels together -/

/-- The row of the opcode table that encoded bits stand for. -/
def decode : Code → Except DecodeError Instr
  | .cell w => decodeCell w
  | .slot w =>
    match decodeSlot w with
    | .ok σ => .ok σ.toInstr
    | .error e => .error e

/-- The bits of a row of the opcode table: the instruction word of 30_encoding.md R44 and R45, or the slot of
R47 and R49. -/
def encode : Instr → Code
  | .lda a => .cell (cellWord 1 a)
  | .add a => .cell (cellWord 2 a)
  | .out x => .cell (cellWord 14 x)
  | .hlt x => .cell (cellWord 15 x)
  | .unmapped0 x => .cell (cellWord 0 x)
  | .unmapped3 x => .cell (cellWord 3 x)
  | .unmapped4 x => .cell (cellWord 4 x)
  | .unmapped5 x => .cell (cellWord 5 x)
  | .unmapped6 x => .cell (cellWord 6 x)
  | .unmapped7 x => .cell (cellWord 7 x)
  | .unmapped8 x => .cell (cellWord 8 x)
  | .unmapped9 x => .cell (cellWord 9 x)
  | .unmapped10 x => .cell (cellWord 10 x)
  | .unmapped11 x => .cell (cellWord 11 x)
  | .unmapped12 x => .cell (cellWord 12 x)
  | .unmapped13 x => .cell (cellWord 13 x)
  | .pcOut => .slot (encodeSlot .pcOut)
  | .pcIn => .slot (encodeSlot .pcIn)
  | .pcInc => .slot (encodeSlot .pcInc)
  | .marIn => .slot (encodeSlot .marIn)
  | .ramIn => .slot (encodeSlot .ramIn)
  | .ramOut => .slot (encodeSlot .ramOut)
  | .irIn => .slot (encodeSlot .irIn)
  | .irOut => .slot (encodeSlot .irOut)
  | .aIn => .slot (encodeSlot .aIn)
  | .aOut => .slot (encodeSlot .aOut)
  | .bIn => .slot (encodeSlot .bIn)
  | .bOut => .slot (encodeSlot .bOut)
  | .aluOut => .slot (encodeSlot .aluOut)
  | .aluSubOut => .slot (encodeSlot .aluSubOut)
  | .outIn => .slot (encodeSlot .outIn)
  | .halt => .slot (encodeSlot .halt)

/-- The instruction the decoder reads from a table word of `nbits` bits. A row of eight bits is a memory cell. A
row of five bits is a ROM slot; rounded up to whole bytes it would be told from no instruction word, and by
30_encoding.md R47 it is none, so eight bits are always read as a cell (log entry 15). -/
def decodeTableWord (nbits w : Nat) : Option Instr :=
  if nbits = 8 then (decode (.cell (BitVec.ofNat 8 w))).toOption
  else if nbits = 5 then (decode (.slot (BitVec.ofNat 5 w))).toOption
  else none

end Sys2Proof
end

