-- ==== Sys2Proof/Machine/Operands.lean ====
section
/-! DEFINITION. The operand forms. An instruction carries at most one operand, the 4-bit address field, an absolute
cell number (30_encoding.md R43); there is no immediate and no other addressing mode (20_memory.md R29). A control
signal has none. -/

namespace Sys2Proof.Machine

/-- The opcode field of IR, "used only for decode, never placed on the bus" (10_state.md R16). -/
def State.opcode (s : State) : Nibble := opcodeOf s.ir

/-- The address field of IR, its "out" value (10_state.md R16, 30_encoding.md R43). -/
def State.addrField (s : State) : Nibble := addrOf s.ir

/-- The memory operand of an instruction word: `MEM[a]` for its absolute address `a` (20_memory.md R29). -/
def State.operandAt (s : State) (a : Nibble) : Byte := s.mem.read a

end Sys2Proof.Machine
end

