-- ==== Sys2Proof/Machine/ControlUnit.lean ====
section
/-! DEFINITION. The control signals of the instruction register, the Clock and the Output register
(44_sequencer.md section 1). -/

namespace Sys2Proof.Machine

/-- IR_IN: `IR <- BUS` (44_sequencer.md R77). -/
def irIn (s : State) : State := { s with ir := s.busIn 8 }

/-- IR_OUT: `BUS <- zext_8(IR[3:0])`; the opcode bits never reach the bus (44_sequencer.md R79). -/
def irOut (s : State) : State := s.drive s.addrField

/-- OUT_IN: `OUT <- BUS`, then the value just latched is emitted as an unsigned integer, one event a dispatch
(44_sequencer.md R83). -/
def outIn (s : State) : State :=
  let t := { s with out := s.busIn 8 }
  t.emit (toInt t.out)

/-- HALT: `halt <- true` (44_sequencer.md R82). -/
def haltSignal (s : State) : State := s.assertHalt

/-- The opcode-table row IR_IN. -/
def execIrIn (s : State) : Host.Outcome State Fault Refusal := .next (irIn s)

/-- The opcode-table row IR_OUT. -/
def execIrOut (s : State) : Host.Outcome State Fault Refusal := .next (irOut s)

/-- The opcode-table row OUT_IN. -/
def execOutIn (s : State) : Host.Outcome State Fault Refusal := .next (outIn s)

/-- The opcode-table row HALT. -/
def execHalt (s : State) : Host.Outcome State Fault Refusal := .next (haltSignal s)

end Sys2Proof.Machine
end

