-- ==== Sys2Proof/Machine/Microcode.lean ====
section
/-! DEFINITION. The reference configuration: the control matrix M_ref (30_encoding.md R50), its ROM image, and the
step count of the reference build (00_scope.md R3, decision D1, log entry 2). -/

namespace Sys2Proof.Machine

/-- The execute steps of M_ref from step 2 on; what is not listed is empty (30_encoding.md R50, decisions D5 and
D6, log entries 3 and 4). -/
def referenceExecute (op : Nibble) : List (List Signal) :=
  if op = 1 then [[.irOut, .marIn], [.ramOut, .aIn]]
  else if op = 2 then [[.irOut, .marIn], [.ramOut, .bIn], [.aluOut, .aIn]]
  else if op = 14 then [[.aOut, .outIn]]
  else if op = 15 then [[.halt]]
  else []

/-- M_ref: the fetch lists at steps 0 and 1 of all sixteen rows, then the execute steps
(30_encoding.md R50). -/
def referenceMatrix : ControlMatrix := fun op k =>
  match k.toNat with
  | 0 => fetchStep0
  | 1 => fetchStep1
  | j + 2 => (referenceExecute op).getD j []

/-- The reference matrix with `S` micro-steps to a cycle (00_scope.md R3). -/
def referenceWith (S : Nat) : Config := ⟨S, referenceMatrix⟩

/-- The reference build: S = 5 (00_scope.md R3, decision D1). -/
def reference : Config := referenceWith 5

/-- The words of the reference ROM image that are not zero and not of the fetch cycle, with their addresses, as
30_encoding.md R50 lists them. -/
def referenceRomWords : List (Nat × BitVec 20) :=
  [(10, 0x00277), (18, 0x00277), (11, 0x00315), (19, 0x00355), (20, 0x0031C), (114, 0x003D9), (122, 0x0001F)]

/-- The reference ROM image, address by address (30_encoding.md R50, decision D4, log entry 6). -/
def referenceRom (addr : BitVec 7) : BitVec 20 :=
  if addr.toNat % 8 = 0 then 0x00270
  else if addr.toNat % 8 = 1 then 0x04AD5
  else
    match referenceRomWords.find? (fun e => e.1 == addr.toNat) with
    | some e => e.2
    | none => 0x00000

end Sys2Proof.Machine
end

