-- ==== Sys2Proof/Machine/ProgramCounter.lean ====
section
/-! DEFINITION. The program counter's three control signals (41_program_counter.md). -/

namespace Sys2Proof.Machine

/-- The ripple of 41_program_counter.md R59, in the document's code form, bit 0 first: while the carry is true,
`diff = (carry == bit)`, the new bit is `not diff` and `diff` is the next carry; once the carry is false the
remaining bits are unchanged. The document's prose form is wrong (90_conflicts.md C1). -/
def rippleIncrement : Bool → List Bool → List Bool
  | _, [] => []
  | false, rest => rest
  | true, b :: rest => (!(true == b)) :: rippleIncrement (true == b) rest

/-- `Enable()` on the counter's four bits: the ripple started with a true carry (41_program_counter.md R59). -/
def pcSuccessor (p : Nibble) : Nibble := fromBits 4 (rippleIncrement true (bits p))

/-- PC_INC (41_program_counter.md R59). -/
def pcInc (s : State) : State := { s with pc := pcSuccessor s.pc }

/-- PC_IN: `PC <- BUS[3:0]` (41_program_counter.md R60). -/
def pcIn (s : State) : State := { s with pc := s.busIn 4 }

/-- PC_OUT: `BUS <- zext_8(PC)` (41_program_counter.md R61). -/
def pcOut (s : State) : State := s.drive s.pc

/-- The opcode-table row PC_INC. -/
def execPcInc (s : State) : Host.Outcome State Fault Refusal := .next (pcInc s)

/-- The opcode-table row PC_IN. -/
def execPcIn (s : State) : Host.Outcome State Fault Refusal := .next (pcIn s)

/-- The opcode-table row PC_OUT. -/
def execPcOut (s : State) : Host.Outcome State Fault Refusal := .next (pcOut s)

end Sys2Proof.Machine
end

