-- ==== Sys2Proof/Machine/Ram.lean ====
section
/-! DEFINITION. The RAM: three control signals and the loader's primitive (42_ram.md). -/

namespace Sys2Proof.Machine

/-- MAR_IN: `MAR <- BUS[3:0]` (42_ram.md R63). -/
def marIn (s : State) : State := { s with mar := s.busIn 4 }

/-- RAM_IN: `MEM[MAR] <- BUS` (42_ram.md R64). -/
def ramIn (s : State) : State := s.writeCell s.mar (s.busIn 8)

/-- RAM_OUT: `BUS <- MEM[MAR]` (42_ram.md R65). -/
def ramOut (s : State) : State := s.drive s.selected

/-- `SetCell(a, v)`: `MEM[a] <- v`, past the address latch and the bus (42_ram.md R66). No control signal. -/
def setCell (a : Nibble) (v : Byte) (s : State) : State := s.writeCell a v

/-- The loader's calls of `SetCell`, in order (42_ram.md R66). -/
def loadImage : List (Nibble × Byte) → State → State
  | [], s => s
  | (a, v) :: rest, s => loadImage rest (setCell a v s)

/-- `SetCell` with its operands as the loader supplies them, "fixed-width bit strings, most-significant first"
(42_ram.md R66, 00_scope.md R6). None if a string is not one. -/
def setCellText (address word : List Char) (s : State) : Option State :=
  match fromText 4 address, fromText 8 word with
  | some a, some v => some (setCell a v s)
  | _, _ => none

/-- The opcode-table row MAR_IN. -/
def execMarIn (s : State) : Host.Outcome State Fault Refusal := .next (marIn s)

/-- The opcode-table row RAM_IN. -/
def execRamIn (s : State) : Host.Outcome State Fault Refusal := .next (ramIn s)

/-- The opcode-table row RAM_OUT. -/
def execRamOut (s : State) : Host.Outcome State Fault Refusal := .next (ramOut s)

end Sys2Proof.Machine
end

