-- ==== Sys2Proof/Machine/Sequencer.lean ====
section
/-! DEFINITION. The microcode sequencer: the micro-step, the step counter, the clocking rule and the driving loop
(44_sequencer.md section 2), for any configuration. -/

namespace Sys2Proof.Machine

/-- The operation a control signal is bound to (30_encoding.md R47): one operation on one component. -/
def applySignal : Signal → State → State
  | .pcOut, s => pcOut s
  | .pcIn, s => pcIn s
  | .pcInc, s => pcInc s
  | .marIn, s => marIn s
  | .ramIn, s => ramIn s
  | .ramOut, s => ramOut s
  | .irIn, s => irIn s
  | .irOut, s => irOut s
  | .aIn, s => aIn s
  | .aOut, s => aOut s
  | .bIn, s => bIn s
  | .bOut, s => bOut s
  | .aluOut, s => aluOut s
  | .aluSubOut, s => aluSubOut s
  | .outIn, s => outIn s
  | .halt, s => haltSignal s

/-- A list of signals dispatched strictly in list order, each on the state the one before it left
(44_sequencer.md R78, R85). -/
def dispatchList : List Signal → State → State
  | [], s => s
  | σ :: rest, s => dispatchList rest (applySignal σ s)

/-- The list the next micro-step dispatches: `M[IR[7:4]][s]`, looked up once, before any signal of the step
(44_sequencer.md R78). -/
def currentList (c : Config) (s : State) : List Signal := c.matrix s.opcode s.stepCounter

/-- `(s + 1) mod S` (44_sequencer.md R84). -/
def nextStepIndex (S : Nat) (k : StepIndex) : StepIndex := BitVec.ofNat 3 ((k.toNat + 1) % S)

/-- The micro-step (44_sequencer.md R78). -/
def microStep (c : Config) (s : State) : State :=
  { dispatchList (currentList c s) s with stepCounter := nextStepIndex c.steps s.stepCounter }

/-- One clock edge with the core enabled: a micro-step while halt is false; when halt is true an edge changes
nothing (44_sequencer.md R81, 60_exceptions.md R106). -/
def clockStep (c : Config) (s : State) : State :=
  if s.isRunning then microStep c s else s

/-- A number of clock edges. -/
def clockSteps (c : Config) : Nat → State → State
  | 0, s => s
  | n + 1, s => clockSteps c n (clockStep c s)

/-- How a bounded run of the driving loop ends. -/
inductive RunEnd where
  | /-- the halt flag is set: the run has ended -/ halted (s : State)
  | /-- the ceiling was reached with halt still false, which is not halting (44_sequencer.md R81) -/
    outOfFuel (s : State)
deriving DecidableEq, Repr

/-- The driving loop `while halt = false: MicroStep` under a ceiling on the number of micro-steps
(44_sequencer.md R81, decision D22). -/
def driveLoop (c : Config) : Nat → State → RunEnd
  | 0, s => if s.halt then .halted s else .outOfFuel s
  | n + 1, s => if s.halt then .halted s else driveLoop c n (microStep c s)

/-- The execute steps of an instruction word: micro-steps 2 to S - 1 of its cycle, run by the sequencer from the
moment the fetch has left the word in IR (45_instructions.md R87, 00_scope.md section 9 "Execute steps"). They end
early where one of them sets halt (44_sequencer.md R82). On a halted machine nothing is executed
(60_exceptions.md R106). -/
def executeSteps (c : Config) (w : Byte) (s : State) : State :=
  if s.isRunning then clockSteps c (c.steps - 2) { s with ir := w, stepCounter := 2 } else s

end Sys2Proof.Machine
end

