-- ==== Sys2Proof/Machine/Instructions.lean ====
section
/-! DEFINITION. The instructions under the reference matrix (45_instructions.md). "An instruction has no semantics
of its own: it is what the sequencer does with the row of the reference matrix M_ref that the instruction's opcode
selects": a meaning is the instruction's execute steps, run by the sequencer on the word left in IR by the fetch
(log entry 13). The fetch itself is micro-steps 0 and 1 (44_sequencer.md R80). -/

namespace Sys2Proof.Machine

/-- LDA a (45_instructions.md R88). -/
def execLda (addr : Nibble) (s : State) : Host.Outcome State Fault Refusal :=
  .next (executeSteps reference (cellWord 1 addr) s)

/-- ADD a (45_instructions.md R89). -/
def execAdd (addr : Nibble) (s : State) : Host.Outcome State Fault Refusal :=
  .next (executeSteps reference (cellWord 2 addr) s)

/-- OUT (45_instructions.md R90). -/
def execOut (low : Nibble) (s : State) : Host.Outcome State Fault Refusal :=
  .next (executeSteps reference (cellWord 14 low) s)

/-- HLT (45_instructions.md R91). -/
def execHlt (low : Nibble) (s : State) : Host.Outcome State Fault Refusal :=
  .next (executeSteps reference (cellWord 15 low) s)

/-- Unmapped opcode 0 (45_instructions.md R92). -/
def execUnmapped0 (low : Nibble) (s : State) : Host.Outcome State Fault Refusal :=
  .next (executeSteps reference (cellWord 0 low) s)

/-- Unmapped opcode 3 (45_instructions.md R92). -/
def execUnmapped3 (low : Nibble) (s : State) : Host.Outcome State Fault Refusal :=
  .next (executeSteps reference (cellWord 3 low) s)

/-- Unmapped opcode 4 (45_instructions.md R92). -/
def execUnmapped4 (low : Nibble) (s : State) : Host.Outcome State Fault Refusal :=
  .next (executeSteps reference (cellWord 4 low) s)

/-- Unmapped opcode 5 (45_instructions.md R92). -/
def execUnmapped5 (low : Nibble) (s : State) : Host.Outcome State Fault Refusal :=
  .next (executeSteps reference (cellWord 5 low) s)

/-- Unmapped opcode 6 (45_instructions.md R92). -/
def execUnmapped6 (low : Nibble) (s : State) : Host.Outcome State Fault Refusal :=
  .next (executeSteps reference (cellWord 6 low) s)

/-- Unmapped opcode 7 (45_instructions.md R92). -/
def execUnmapped7 (low : Nibble) (s : State) : Host.Outcome State Fault Refusal :=
  .next (executeSteps reference (cellWord 7 low) s)

/-- Unmapped opcode 8 (45_instructions.md R92). -/
def execUnmapped8 (low : Nibble) (s : State) : Host.Outcome State Fault Refusal :=
  .next (executeSteps reference (cellWord 8 low) s)

/-- Unmapped opcode 9 (45_instructions.md R92). -/
def execUnmapped9 (low : Nibble) (s : State) : Host.Outcome State Fault Refusal :=
  .next (executeSteps reference (cellWord 9 low) s)

/-- Unmapped opcode 10 (45_instructions.md R92). -/
def execUnmapped10 (low : Nibble) (s : State) : Host.Outcome State Fault Refusal :=
  .next (executeSteps reference (cellWord 10 low) s)

/-- Unmapped opcode 11 (45_instructions.md R92). -/
def execUnmapped11 (low : Nibble) (s : State) : Host.Outcome State Fault Refusal :=
  .next (executeSteps reference (cellWord 11 low) s)

/-- Unmapped opcode 12 (45_instructions.md R92). -/
def execUnmapped12 (low : Nibble) (s : State) : Host.Outcome State Fault Refusal :=
  .next (executeSteps reference (cellWord 12 low) s)

/-- Unmapped opcode 13 (45_instructions.md R92). -/
def execUnmapped13 (low : Nibble) (s : State) : Host.Outcome State Fault Refusal :=
  .next (executeSteps reference (cellWord 13 low) s)

end Sys2Proof.Machine
end

