-- ==== Sys2Proof/Machine/Dispatch.lean ====
section
/-! DEFINITION. One arm for each row of spec/opcode_table.json. -/

namespace Sys2Proof.Machine

/-- What each row of the opcode table does. -/
def exec (i : Instr) (s : State) : Host.Outcome State Fault Refusal :=
  match i with
  | .lda addr => Sys2Proof.Machine.execLda addr s
  | .add addr => Sys2Proof.Machine.execAdd addr s
  | .out low => Sys2Proof.Machine.execOut low s
  | .hlt low => Sys2Proof.Machine.execHlt low s
  | .unmapped0 low => Sys2Proof.Machine.execUnmapped0 low s
  | .unmapped3 low => Sys2Proof.Machine.execUnmapped3 low s
  | .unmapped4 low => Sys2Proof.Machine.execUnmapped4 low s
  | .unmapped5 low => Sys2Proof.Machine.execUnmapped5 low s
  | .unmapped6 low => Sys2Proof.Machine.execUnmapped6 low s
  | .unmapped7 low => Sys2Proof.Machine.execUnmapped7 low s
  | .unmapped8 low => Sys2Proof.Machine.execUnmapped8 low s
  | .unmapped9 low => Sys2Proof.Machine.execUnmapped9 low s
  | .unmapped10 low => Sys2Proof.Machine.execUnmapped10 low s
  | .unmapped11 low => Sys2Proof.Machine.execUnmapped11 low s
  | .unmapped12 low => Sys2Proof.Machine.execUnmapped12 low s
  | .unmapped13 low => Sys2Proof.Machine.execUnmapped13 low s
  | .pcOut => Sys2Proof.Machine.execPcOut s
  | .pcIn => Sys2Proof.Machine.execPcIn s
  | .pcInc => Sys2Proof.Machine.execPcInc s
  | .marIn => Sys2Proof.Machine.execMarIn s
  | .ramIn => Sys2Proof.Machine.execRamIn s
  | .ramOut => Sys2Proof.Machine.execRamOut s
  | .irIn => Sys2Proof.Machine.execIrIn s
  | .irOut => Sys2Proof.Machine.execIrOut s
  | .aIn => Sys2Proof.Machine.execAIn s
  | .aOut => Sys2Proof.Machine.execAOut s
  | .bIn => Sys2Proof.Machine.execBIn s
  | .bOut => Sys2Proof.Machine.execBOut s
  | .aluOut => Sys2Proof.Machine.execAluOut s
  | .aluSubOut => Sys2Proof.Machine.execAluSubOut s
  | .outIn => Sys2Proof.Machine.execOutIn s
  | .halt => Sys2Proof.Machine.execHalt s

end Sys2Proof.Machine
end

