-- ==== Sys2Proof/Machine/Step.lean ====
section
/-! DEFINITION. One step of the core. The unit of execution is the micro-step (00_scope.md R7, 44_sequencer.md
R78): "every rising edge at which rst = 0, run = 1 and halt = false performs exactly one micro-step"
(10_state.md R25). A step is one such edge, and an instruction is S of them (45_instructions.md R87; log entry 1). -/

namespace Sys2Proof.Machine

/-- One step under any configuration (00_scope.md R3: "a model should take M as a parameter"). It has no fault and
no refusal (60_exceptions.md R95). -/
def stepWith (c : Config) (s : State) : Host.Outcome State Fault Refusal :=
  .next (clockStep c s)

/-- One step of the reference build. -/
def step (s : State) : Host.Outcome State Fault Refusal :=
  stepWith reference s

/-- A number of steps under any configuration. -/
def runWith (c : Config) : Nat → State → Host.Outcome State Fault Refusal
  | 0, s => .next s
  | n + 1, s =>
    match stepWith c s with
    | .next t => runWith c n t
    | .fault r => .fault r
    | .refused r => .refused r

/-- The state in which the next micro-step is the first one of its own that the instruction word `w` has: the
running machine, at an instruction boundary, with `w` in the cell PC names, taken through the two fetch micro-steps
(44_sequencer.md R80; log entry 14). Only a row of eight bits is an instruction word; for any other the state is
unchanged. -/
def State.withFetchWord (s : State) (nbits w : Nat) : State :=
  if nbits = 8 then
    clockSteps reference 2
      { setCell s.pc (BitVec.ofNat 8 w) s with stepCounter := 0, halt := false }
  else s

end Sys2Proof.Machine
end

