-- ==== Sys2Proof/Machine/Ports.lean ====
section
/-! DEFINITION. The core at its pins (10_state.md section 5, decision D11, log entry 12): one rising clock edge
with its inputs, the outputs after it, and the host's side of the loader contract. -/

namespace Sys2Proof.Machine

/-- The inputs sampled at a rising edge of `clk` (10_state.md R25, R26). -/
structure Pins where
  rst : Bool
  run : Bool
  ldEn : Bool
  ldAddr : Nibble
  ldData : Byte
deriving DecidableEq, Repr

/-- The outputs after the edge (10_state.md R27). -/
structure Outputs where
  outData : Byte
  outValid : Bool
  halted : Bool
deriving DecidableEq, Repr

/-- The state after one rising edge: reset, a micro-step, a loader write, or nothing (10_state.md R25, R26). -/
def edge (c : Config) (p : Pins) (s : State) : State :=
  if p.rst then State.reset
  else if p.run then clockStep c s
  else if p.ldEn then setCell p.ldAddr p.ldData s
  else s

/-- The edge performs a micro-step whose list dispatches OUT_IN (10_state.md R27). -/
def edgeEmits (c : Config) (p : Pins) (s : State) : Bool :=
  !p.rst && p.run && s.isRunning && decide (Signal.outIn ∈ currentList c s)

/-- The outputs in the clock cycle after the edge. `outValid` pulses once however many OUT_IN the list dispatched,
and `outData` then shows the last (10_state.md R27). -/
def edgeOutputs (c : Config) (p : Pins) (s : State) : Outputs where
  outData := (edge c p s).out
  outValid := edgeEmits c p s
  halted := (edge c p s).halt

/-- The core together with what the host must remember to keep its side of the loader contract: whether `run` has
been 1 since the last reset (10_state.md R26). -/
structure Session where
  core : State
  started : Bool
deriving DecidableEq, Repr

/-- One edge of a session. The loader port asserted once the run has started is refused: "a model gives the host no
such move" (70_reset_and_hazards.md R117, decision D17). -/
def Session.edge (c : Config) (p : Pins) (x : Session) : Host.Outcome Session Fault Refusal :=
  if !p.rst && p.ldEn && x.started then .refused .loaderAfterStart
  else .next
    { core := Sys2Proof.Machine.edge c p x.core
      started := !p.rst && (p.run || x.started) }

/-- The launch state of a run: reset, then the loader's calls of `SetCell` (70_reset_and_hazards.md R107). -/
def launch (image : List (Nibble × Byte)) : State := loadImage image State.reset

end Sys2Proof.Machine
end

