-- ==== Sys2Proof/Safety.lean ====
section
/-! DEFINITION. What a good state and a good run are, in the terms claims use. Nothing in this machine is an error
(60_exceptions.md R94), so safety is about what every step keeps and about halting (R95). -/

namespace Sys2Proof.Machine

/-- What every micro-step keeps under any configuration with step count `S`. -/
structure Inv (S : Nat) (s : State) : Prop where
  /-- The memory is in its canonical form (log entry 9). -/
  memWf : s.mem.wf = true
  /-- `s ∈ [0, S)` (10_state.md R18). -/
  stepRange : s.stepCounter.toNat < S
  /-- Every entry of LOG is "one unsigned integer in 0..255" (10_state.md R21). -/
  logBytes : ∀ n ∈ s.log, n < 256
  /-- OUT is "the last value output" (10_state.md R8): the last event, where there is one. -/
  outIsLast : ∀ n ∈ s.log.getLast?, n = s.out.toNat

/-- What every micro-step of the reference build keeps besides. -/
structure ReferenceInv (s : State) : Prop where
  base : Inv 5 s
  /-- After fetch step 0 the cell PC names is selected (44_sequencer.md R80). -/
  selected : s.stepCounter = 1 → s.mar = s.pc
  /-- From the end of fetch step 1 to the end of the cycle PC holds "the address of the instruction after the one
  in IR" (10_state.md R10), and IR the word of that cell, since no list of M_ref writes memory (20_memory.md R30). -/
  fetched : 2 ≤ s.stepCounter.toNat → s.ir = s.mem.read (s.pc - 1)
  /-- The halted state is the one HLT's step 2 leaves (45_instructions.md R91). -/
  haltedAtHlt : s.halt = true → s.opcode = 15 ∧ s.stepCounter = 3

/-- The state is an instruction boundary of a running machine (45_instructions.md R87). -/
def State.atBoundary (s : State) : Prop := s.stepCounter = 0 ∧ s.halt = false

/-- The driving loop reaches the halted state within `n` micro-steps (60_exceptions.md R95). Running out of fuel is
not halting. -/
def HaltsWithin (c : Config) (n : Nat) (s : State) : Prop := ∃ t, driveLoop c n s = .halted t

/-- No cell holds a HLT word (70_reset_and_hazards.md R115). -/
def State.noHlt (s : State) : Prop := ∀ a : Nibble, opcodeOf (s.mem.read a) ≠ 15

end Sys2Proof.Machine
end

