-- ==== Sys2Proof/Certificates/Slice0/Obligations.lean ====
section
/-! DEFINITION. The statements for the provers. Each docstring names the rule of spec/ it formalises, or, where a
statement rests on a decision of the spec or of this model, that decision and its log entry. -/

open Sys2Proof Sys2Proof.Machine

namespace Sys2Proof.Claims

/-- Signals run one after another through `exec`, stopping where one does not answer a next state. -/
def execList : List Signal → State → Host.Outcome State Fault Refusal
  | [], s => .next s
  | σ :: rest, s =>
    match exec σ.toInstr s with
    | .next t => execList rest t
    | .fault r => .fault r
    | .refused r => .refused r

/-- The state the two fetch micro-steps leave (44_sequencer.md R80). -/
def fetched (s : State) : State :=
  { s with mar := s.pc, bus := s.mem.read s.pc, ir := s.mem.read s.pc, pc := s.pc + 1, stepCounter := 2 }

/-- The function from a boundary state to the next boundary state or the halted state, as
45_instructions.md R93 writes it. -/
def macroStep (s : State) : State :=
  let w := s.mem.read s.pc
  let a := w.extractLsb' 0 4
  let t := { s with ir := w, pc := s.pc + 1 }
  match (w.extractLsb' 4 4).toNat with
  | 1 => { t with a := s.mem.read a, mar := a, bus := s.mem.read a }
  | 2 => { t with b := s.mem.read a, a := s.a + s.mem.read a, mar := a, bus := s.a + s.mem.read a }
  | 14 => { t with out := s.a, log := s.log ++ [s.a.toNat], mar := s.pc, bus := s.a }
  | 15 => { t with halt := true, stepCounter := 3, mar := s.pc, bus := w }
  | _ => { t with mar := s.pc, bus := w }

/-- The value each producer drives (40_bus_register_fit.md R58). -/
def drivenBy : Signal → State → Byte
  | .pcOut, s => 0#4 ++ s.pc
  | .irOut, s => 0#4 ++ s.ir.extractLsb' 0 4
  | .ramOut, s => s.mem.read s.mar
  | .aOut, s => s.a
  | .bOut, s => s.b
  | .aluOut, s => s.a + s.b
  | .aluSubOut, s => s.a - s.b
  | _, s => s.bus

/-- The state after a consumer latched the value `v` (40_bus_register_fit.md R58, 44_sequencer.md R83). -/
def latchedBy : Signal → Byte → State → State
  | .pcIn, v, s => { s with pc := v.extractLsb' 0 4 }
  | .marIn, v, s => { s with mar := v.extractLsb' 0 4 }
  | .ramIn, v, s => { s with mem := s.mem.write s.mar v }
  | .irIn, v, s => { s with ir := v }
  | .aIn, v, s => { s with a := v }
  | .bIn, v, s => { s with b := v }
  | .outIn, v, s => { s with out := v, log := s.log ++ [v.toNat] }
  | _, _, s => s

/-- The last value the loader gave cell `a`, if it wrote the cell (42_ram.md R66). -/
def lastLoaded : List (Nibble × Byte) → Nibble → Option Byte
  | [], _ => none
  | (c, v) :: rest, a =>
    match lastLoaded rest a with
    | some w => some w
    | none => if c = a then some v else none

/-- Two states agree on every element but OUT and LOG. -/
def sameButOutput (s t : State) : Prop := { s with out := t.out, log := t.log } = t

end Sys2Proof.Claims

open Sys2Proof.Claims

/-! ## Encoding -/

/-- Decoding the encoding of any row of the opcode table gives the row back with its operand, and bits that decode
to a row are its encoding (30_encoding.md R41, R44, R45, R47, R49). -/
def Obligations.DecodeEncodeRoundTrip : Prop :=
  (∀ i : Instr, i.wf = true → decode (encode i) = .ok i) ∧
  (∀ (code : Code) (i : Instr), decode code = .ok i → encode i = code)

/-- Every one of the 256 words is an instruction of one cell: it decodes, leaves the following bytes, has the
opcode `floor(w / 16)` and the address field `w mod 16`, and is the word of that instruction (30_encoding.md R42,
R45, R52). -/
def Obligations.EveryWordIsOneInstruction : Prop :=
  ∀ (w : Byte) (rest : List Byte),
    (opcodeOf w).toNat = w.toNat / 16 ∧ (addrOf w).toNat = w.toNat % 16 ∧
    ∃ i : Instr, decodeBytes (w :: rest) = .ok (i, rest) ∧ encode i = .cell w

/-- Words written out from the tables of 30_encoding.md R44, R45 and R47 decode to the rows they stand for: the
decode vectors of 95_test_vectors.md and three slots; and a slot whose `valid` bit is 0 stands for no row. The slots'
five bits, the `valid` bit and the signal numbers are the spec's decisions D2 to D4 (30_encoding.md R49, log entries 5
and 6), and that an empty slot is refused by name is the model's choice (log entry 15). -/
def Obligations.SampleWordsDecode : Prop :=
  decode (.cell 0x1E) = .ok (.lda 14) ∧ decode (.cell 0x2F) = .ok (.add 15) ∧
  decode (.cell 0xE5) = .ok (.out 5) ∧ decode (.cell 0xF7) = .ok (.hlt 7) ∧
  decode (.cell 0x0E) = .ok (.unmapped0 14) ∧ decode (.cell 0x5A) = .ok (.unmapped5 10) ∧
  decode (.cell 0xD7) = .ok (.unmapped13 7) ∧
  decode (.slot 0b10000) = .ok .pcOut ∧ decode (.slot 0b11101) = .ok .aluSubOut ∧
  decode (.slot 0b11111) = .ok .halt ∧ decode (.slot 0b01111) = .error .emptySlot

/-- A list of at most four signals is read back from its ROM word; a longer one has none. The layout is the
spec's decision D4 (30_encoding.md R49, log entry 6). -/
def Obligations.RomWordHoldsItsList : Prop :=
  (∀ l : List Signal, l.length ≤ 4 → ∃ w, encodeRomWord l = some w ∧ decodeRomWord w = l) ∧
  (∀ l : List Signal, 4 < l.length → encodeRomWord l = none)

/-- The ROM image of 30_encoding.md R50 is the reference matrix: each entry's word is the image's word at address
`8·op + k`, and the image read back gives the matrix (decisions D4, D5, D6, log entries 3, 4 and 6). -/
def Obligations.RomImageIsTheReferenceMatrix : Prop :=
  ∀ (op : Nibble) (k : StepIndex),
    (romAddress op k).toNat = 8 * op.toNat + k.toNat ∧
    encodeRomWord (referenceMatrix op k) = some (referenceRom (romAddress op k)) ∧
    matrixOfRom referenceRom op k = referenceMatrix op k

/-- The reference matrix satisfies the predicate of 70_reset_and_hazards.md R120, which is the spec's own (decision
D23, log entry 26), at every step count of the range. -/
def Obligations.ReferenceMatrixIsDisciplined : Prop :=
  ∀ S : Nat, 5 ≤ S → S ≤ 8 → (referenceWith S).wf = true ∧ (referenceWith S).disciplined = true

/-! ## Bit vectors -/

/-- `toInt` is the weighted sum of the bits, `fromInt_n` takes its bits from the number, and `fromInt_n(toInt(v))`
is `v` (00_scope.md R5). -/
def Obligations.IntegerValueOfABitVector : Prop :=
  ∀ (n : Nat) (v : BitVec n),
    toInt v = ((List.range n).map fun k => (v.getLsbD k).toNat * 2 ^ k).sum ∧
    (∀ i k : Nat, k < n → ((fromInt n i).getLsbD k).toNat = i / 2 ^ k % 2) ∧
    fromInt n (toInt v) = v

/-- The textual form has `n` characters, `0` or `1`, character `j` being bit `n - 1 - j`, and reading it back gives
the vector (00_scope.md R6). -/
def Obligations.TextFormOfABitVector : Prop :=
  ∀ (n : Nat) (v : BitVec n),
    (toText v).length = n ∧
    (∀ j : Nat, j < n → (toText v)[j]? = some (if v.getLsbD (n - 1 - j) then '1' else '0')) ∧
    fromText n (toText v) = some v

/-- `fit` copies the low bits and fills the rest with the default; with the default false it is the identity at
equal widths, truncation from eight bits to four and zero extension from four to eight
(40_bus_register_fit.md R53). -/
def Obligations.FitCopiesLowBitsAndFills : Prop :=
  (∀ (m n : Nat) (v : BitVec m) (fill : Bool) (k : Nat), k < n →
    (fit n v fill).getLsbD k = if k < m then v.getLsbD k else fill) ∧
  (∀ (m : Nat) (v : BitVec m) (fill : Bool), fit m v fill = v) ∧
  (∀ v : Byte, fit 4 v = v.extractLsb' 0 4) ∧
  (∀ v : Nibble, fit 8 v = 0#4 ++ v)

/-! ## The control signals -/

/-- PC_INC: the counter becomes its binary successor modulo 16, bit by bit as the carry chain says, and nothing
else changes; sixteen of them return the counter to where it was (41_program_counter.md R59). -/
def Obligations.PcIncIsBinarySuccessor : Prop :=
  ∀ s : State,
    exec .pcInc s = .next { s with pc := s.pc + 1 } ∧
    (s.pc + 1).toNat = (s.pc.toNat + 1) % 16 ∧
    (∀ c : Nat → Bool, c 0 = true → (∀ k, k < 4 → c (k + 1) = (s.pc.getLsbD k && c k)) →
      ∀ k, k < 4 → (s.pc + 1).getLsbD k = (s.pc.getLsbD k ^^ c k)) ∧
    execList (List.replicate 16 .pcInc) s = .next s

/-- PC_IN: the counter takes the low four bits of the bus; an increment after it in the list adds to that, an
increment before it is lost (41_program_counter.md R60). -/
def Obligations.PcInLoadsLowBusBits : Prop :=
  ∀ s : State,
    exec .pcIn s = .next { s with pc := s.bus.extractLsb' 0 4 } ∧
    execList [.pcIn, .pcInc] s = .next { s with pc := s.bus.extractLsb' 0 4 + 1 } ∧
    execList [.pcInc, .pcIn] s = .next { s with pc := s.bus.extractLsb' 0 4 }

/-- PC_OUT: the bus takes the counter with four zeros above it (41_program_counter.md R61). -/
def Obligations.PcOutDrivesZeroExtendedCounter : Prop :=
  ∀ s : State, exec .pcOut s = .next { s with bus := 0#4 ++ s.pc }

/-- MAR_IN: the address register takes the low four bits of the bus and nothing else changes; from then on RAM_OUT
reads, and RAM_IN writes, the cell it names: after MAR_IN and RAM_IN the cell `BUS[3:0]` reads as the bus, every other
cell reads as before, and MAR is the only other change. A RAM_OUT before MAR_IN reads the old cell
(42_ram.md R63). -/
def Obligations.MarInSelectsTheCell : Prop :=
  ∀ s : State,
    exec .marIn s = .next { s with mar := s.bus.extractLsb' 0 4 } ∧
    execList [.marIn, .ramOut] s =
      .next { s with mar := s.bus.extractLsb' 0 4, bus := s.mem.read (s.bus.extractLsb' 0 4) } ∧
    (∃ m : Memory,
      execList [.marIn, .ramIn] s = .next { s with mar := s.bus.extractLsb' 0 4, mem := m } ∧
      m.read (s.bus.extractLsb' 0 4) = s.bus ∧
      ∀ a : Nibble, a ≠ s.bus.extractLsb' 0 4 → m.read a = s.mem.read a) ∧
    execList [.ramOut, .marIn] s =
      .next { s with bus := s.mem.read s.mar, mar := (s.mem.read s.mar).extractLsb' 0 4 }

/-- RAM_IN: the selected cell reads as the bus afterwards, every other cell as before, and no other element
changes; a RAM_OUT later in the list reads the value back (42_ram.md R64). -/
def Obligations.RamInWritesTheSelectedCell : Prop :=
  ∀ s : State, ∃ m : Memory,
    exec .ramIn s = .next { s with mem := m } ∧
    m.read s.mar = s.bus ∧ (∀ a : Nibble, a ≠ s.mar → m.read a = s.mem.read a) ∧
    execList [.ramIn, .ramOut] s = .next { s with mem := m }

/-- RAM_OUT: the bus takes the selected cell, and nothing else changes; after `SetCell(addr, val)` and latching
`addr` it is `val` (42_ram.md R65). -/
def Obligations.RamOutDrivesTheSelectedCell : Prop :=
  (∀ s : State, exec .ramOut s = .next { s with bus := s.mem.read s.mar }) ∧
  (∀ (s : State) (addr : Nibble) (val : Byte), s.bus.extractLsb' 0 4 = addr →
    ∃ t, execList [.marIn, .ramOut] (setCell addr val s) = .next t ∧ t.bus = val)

/-- `SetCell(a, v)`: the cell reads as `v`, every other cell and every other element is as before, and a second call
for the same address keeps the second value (42_ram.md R66). -/
def Obligations.SetCellWritesOneCell : Prop :=
  ∀ (s : State) (a : Nibble) (v w : Byte), ∃ m : Memory,
    setCell a v s = { s with mem := m } ∧
    m.read a = v ∧ (∀ c : Nibble, c ≠ a → m.read c = s.mem.read c) ∧
    setCell a v (setCell a w s) = setCell a v s ∧
    setCellText (toText a) (toText v) s = some (setCell a v s)

/-- A_IN and B_IN: the register takes the bus, and nothing else changes; in `[ALU_OUT, A_IN]` the sum is of the old
A (43_alu.md R68, R70). -/
def Obligations.AluInputsLatchTheBus : Prop :=
  ∀ s : State,
    exec .aIn s = .next { s with a := s.bus } ∧
    exec .bIn s = .next { s with b := s.bus } ∧
    execList [.aluOut, .aIn] s = .next { s with bus := s.a + s.b, a := s.a + s.b }

/-- A_OUT and B_OUT: the bus takes the register, and nothing else changes. That the two signals exist is the spec's
decision D2 (43_alu.md R69, R71, log entry 5). -/
def Obligations.AluInputsDriveTheBus : Prop :=
  ∀ s : State, exec .aOut s = .next { s with bus := s.a } ∧ exec .bOut s = .next { s with bus := s.b }

/-- `Compute(subtract)` is the chain of eight full adders: for the carries `c[0..8]` of the rule, result bit `k` is
`(A[k] XOR b'[k]) XOR c[k]`, and the carry out of the last adder, which the result drops, is `c[8]`
(43_alu.md R72). -/
def Obligations.ComputeIsTheFullAdderChain : Prop :=
  ∀ (sub : Bool) (a b : Byte) (c : Nat → Bool), c 0 = sub →
    (∀ k, k < 8 → c (k + 1) =
      ((c k && a.getLsbD k) || (c k && (sub ^^ b.getLsbD k)) || (a.getLsbD k && (sub ^^ b.getLsbD k)))) →
    (∀ k, k < 8 → (aluCompute sub a b).getLsbD k = ((a.getLsbD k ^^ (sub ^^ b.getLsbD k)) ^^ c k)) ∧
    (adderChain sub a b).2 = c 8

/-- ALU_OUT: the bus takes the sum of A and B modulo 256, and nothing else changes: no flag, no stored carry
(43_alu.md R73). -/
def Obligations.AluOutAddsModulo256 : Prop :=
  ∀ s : State, ∃ r : Byte,
    exec .aluOut s = .next { s with bus := r } ∧ r = s.a + s.b ∧ r.toNat = (s.a.toNat + s.b.toNat) % 256

/-- ALU_SUB_OUT: the bus takes A minus B modulo 256, and nothing else changes; the carry that is dropped is 1
exactly when A is not below B. That subtraction is a signal of its own is the spec's decision D2 (43_alu.md R74, log
entry 5). -/
def Obligations.AluSubOutSubtractsModulo256 : Prop :=
  ∀ s : State, ∃ r : Byte,
    exec .aluSubOut s = .next { s with bus := r } ∧ r = s.a - s.b ∧
    r.toNat = (s.a.toNat + (255 - s.b.toNat) + 1) % 256 ∧
    (adderChain true s.a s.b).2 = decide (s.b.toNat ≤ s.a.toNat)

/-- IR_IN takes the bus into IR; IR_OUT drives its low four bits with four zeros above them, and a list that does
both drives the address field of the word just latched (44_sequencer.md R77, R79). -/
def Obligations.InstructionRegisterSignals : Prop :=
  ∀ s : State,
    exec .irIn s = .next { s with ir := s.bus } ∧
    exec .irOut s = .next { s with bus := 0#4 ++ s.ir.extractLsb' 0 4 } ∧
    execList [.irIn, .irOut] s = .next { s with ir := s.bus, bus := 0#4 ++ s.bus.extractLsb' 0 4 }

/-- OUT_IN: OUT takes the bus and its unsigned value is appended to LOG, one event a dispatch
(44_sequencer.md R83). -/
def Obligations.OutInLatchesAndEmits : Prop :=
  ∀ s : State,
    exec .outIn s = .next { s with out := s.bus, log := s.log ++ [s.bus.toNat] } ∧
    s.bus.toNat < 256 ∧
    execList [.outIn, .outIn] s = .next { s with out := s.bus, log := s.log ++ [s.bus.toNat, s.bus.toNat] }

/-- HALT sets the halt flag and touches nothing else, however the flag stood; signals after it in the same list are
still dispatched, with the effect they have without it; and the micro-step whose list dispatches it ends the run: its
step counter is advanced, and no micro-step is executed after it (44_sequencer.md R82). -/
def Obligations.HaltSetsTheFlagAndEndsTheRun : Prop :=
  (∀ s : State, exec .halt s = .next { s with halt := true }) ∧
  (∀ (l : List Signal) (s : State),
    dispatchList (.halt :: l) s = { dispatchList l s with halt := true }) ∧
  (∀ (c : Config) (s : State), s.halt = false → Signal.halt ∈ c.matrix (s.ir.extractLsb' 4 4) s.stepCounter →
    ∃ t, stepWith c s = .next t ∧ t.halt = true ∧
      t.stepCounter = BitVec.ofNat 3 ((s.stepCounter.toNat + 1) % c.steps) ∧
      ∀ n, runWith c n t = .next t)

/-! ## The bus -/

/-- A producer writes BUS and nothing else, with the value the width table gives; no other signal writes BUS, so a
micro-step whose list has no producer leaves it (40_bus_register_fit.md R55, R57, R58; the persistence is the spec's
decision D10, log entry 10). -/
def Obligations.OnlyProducersWriteTheBus : Prop :=
  (∀ (σ : Signal) (s : State), σ.cls = .producer → applySignal σ s = { s with bus := drivenBy σ s }) ∧
  (∀ (σ : Signal) (s : State), σ.cls ≠ .producer → (applySignal σ s).bus = s.bus) ∧
  (∀ (c : Config) (s : State), noneOf .producer (currentList c s) = true →
    ∃ t, stepWith c s = .next t ∧ t.bus = s.bus)

/-- In a list `[producer, consumer]` the consumer latches the value just driven; in `[consumer, producer]` it latches
what the bus held before, and the producer drives after the latch (44_sequencer.md R85). -/
def Obligations.ProducerBeforeConsumerDelivers : Prop :=
  ∀ (p k : Signal) (s : State), p.cls = .producer → k.cls = .consumer →
    dispatchList [p, k] s = latchedBy k (drivenBy p s) { s with bus := drivenBy p s } ∧
    dispatchList [k, p] s =
      { latchedBy k s.bus s with bus := drivenBy p (latchedBy k s.bus s) }

/-- Of two producers in a row the later one wins and the earlier one's value is seen by nothing, whatever signals
follow. The ordered bus is the spec's decision D12 (40_bus_register_fit.md R56, log entry 11). -/
def Obligations.LaterProducerReplacesEarlier : Prop :=
  ∀ (p q : Signal) (l : List Signal) (s : State), p.cls = .producer → q.cls = .producer →
    dispatchList (p :: q :: l) s = dispatchList (q :: l) s

/-! ## The sequencer -/

/-- A STEP RUNS THE SIGNALS OF THE SELECTED LIST: while halt is false, a step looks up the list of the opcode in IR
at the step counter, runs `exec` of each of its signals in list order, and then advances the step counter
(44_sequencer.md R78). `step` is that at the reference configuration; that clause is no rule's, and rests on the
spec's decision D1 on the step count (log entry 2). -/
def Obligations.StepRunsTheSelectedSignals : Prop :=
  (∀ (c : Config) (s : State), s.halt = false →
    stepWith c s =
      match execList (c.matrix (s.ir.extractLsb' 4 4) s.stepCounter) s with
      | .next t => .next { t with stepCounter := BitVec.ofNat 3 ((s.stepCounter.toNat + 1) % c.steps) }
      | .fault r => .fault r
      | .refused r => .refused r) ∧
  (∀ s : State, step s = stepWith reference s)

/-- The step counter advances by one modulo S at the end of every micro-step, whatever its list, an empty one and one
with HALT included; without HALT in any list, S micro-steps bring it back. That nothing else restarts it is the
spec's decision D13 (44_sequencer.md R84, log entry 19). -/
def Obligations.StepCounterAdvancesModuloS : Prop :=
  ∀ (c : Config) (s : State), c.wf = true → s.stepCounter.toNat < c.steps → s.halt = false →
    (∃ t, stepWith c s = .next t ∧ t.stepCounter.toNat = (s.stepCounter.toNat + 1) % c.steps) ∧
    ((∀ op k, Signal.halt ∉ c.matrix op k) →
      ∃ t, runWith c c.steps s = .next t ∧ t.stepCounter = s.stepCounter ∧ t.halt = false)

/-- When halt is true a clock edge changes nothing, so the halted state is final until reset; while it is false, the
same edge is one step. The port view is the spec's decision D12 (44_sequencer.md R81, 60_exceptions.md R106, log
entries 1 and 12). -/
def Obligations.HaltedMachineStands : Prop :=
  ∀ (c : Config) (s : State),
    (s.halt = true → ∀ n, runWith c n s = .next s) ∧
    (∀ p : Pins, p.rst = false → p.run = true → stepWith c s = .next (edge c p s))

/-- The halt flag is set by the HALT signal and by nothing else: a micro-step ends with it set exactly when it was
set or the list dispatched HALT. It is cleared by reset and by nothing else, is false after reset, and is the halted
port (10_state.md R19; the ports' other details are the spec's decision D11, log entry 12). -/
def Obligations.HaltFlagSetByHaltClearedByReset : Prop :=
  State.reset.halt = false ∧
  (∀ (σ : Signal) (s t : State), exec σ.toInstr s = .next t → (t.halt = true ↔ s.halt = true ∨ σ = .halt)) ∧
  (∀ (c : Config) (s t : State), stepWith c s = .next t →
    (t.halt = true ↔ s.halt = true ∨ Signal.halt ∈ c.matrix (s.ir.extractLsb' 4 4) s.stepCounter)) ∧
  (∀ (c : Config) (p : Pins) (s : State), s.halt = true → ((edge c p s).halt = false ↔ p.rst = true)) ∧
  (∀ (c : Config) (p : Pins) (s : State), (edgeOutputs c p s).halted = (edge c p s).halt)

/-- A step appends to LOG one integer in 0..255 for each OUT_IN its list dispatches, and removes nothing
(10_state.md R21, R27). -/
def Obligations.EachOutInAppendsOneEvent : Prop :=
  ∀ (c : Config) (s : State), s.halt = false →
    ∃ t l, stepWith c s = .next t ∧ t.log = s.log ++ l ∧
      l.length = (c.matrix (s.ir.extractLsb' 4 4) s.stepCounter).count .outIn ∧ ∀ n ∈ l, n < 256

/-- OUT and LOG are read by the host only: two machines that agree on every other element still do after any number
of steps, under any matrix (10_state.md R8, R17, R21). -/
def Obligations.OutputIsNeverReadBack : Prop :=
  ∀ (c : Config) (n : Nat) (s t : State), sameButOutput s t →
    ∃ s' t', runWith c n s = .next s' ∧ runWith c n t = .next t' ∧ sameButOutput s' t'

/-- Every step and every row of the opcode table answers a next state, from every state and under every matrix
(60_exceptions.md R94, R95). -/
def Obligations.NothingIsAnError : Prop :=
  (∀ (c : Config) (s : State), ∃ t, stepWith c s = .next t) ∧ (∀ (i : Instr) (s : State), ∃ t, exec i s = .next t)

/-- A machine whose current row has neither IR_IN nor HALT at any step never leaves that row and never halts: IR
keeps its word for ever (70_reset_and_hazards.md R111). -/
def Obligations.RowWithoutFetchNeverLeaves : Prop :=
  ∀ (c : Config) (s : State), s.halt = false →
    (∀ k, Signal.irIn ∉ c.matrix (s.ir.extractLsb' 4 4) k ∧ Signal.halt ∉ c.matrix (s.ir.extractLsb' 4 4) k) →
    ∀ n, ∃ t, runWith c n s = .next t ∧ t.ir = s.ir ∧ t.halt = false

/-! ## The instructions under the reference matrix -/

/-- The fetch cycle: from an instruction boundary two micro-steps select the cell PC names, bring its word to BUS and
IR and advance PC, whatever opcode was in IR, and change nothing else (44_sequencer.md R80; that all sixteen rows
carry it is the spec's decision D6, log entry 4). -/
def Obligations.FetchCycleLoadsTheWord : Prop :=
  ∀ (S : Nat) (s : State), 5 ≤ S → S ≤ 8 → s.stepCounter = 0 → s.halt = false →
    runWith (referenceWith S) 2 s = .next (fetched s)

/-- Five steps run the decoded instruction: from an instruction boundary whose cell decodes to `i`, two steps are the
fetch, and the three after it are `exec i` on the fetched state. A step of this machine is a micro-step, so this is
how the meanings reach a run (45_instructions.md R87, log entries 1 and 13). -/
def Obligations.CycleRunsTheDecodedInstruction : Prop :=
  ∀ (s : State) (i : Instr), s.atBoundary → decodeBytes [s.mem.read s.pc] = .ok (i, []) →
    runWith reference 2 s = .next (fetched s) ∧
    runWith reference 3 (fetched s) = exec i (fetched s) ∧
    runWith reference 5 s = exec i (fetched s)

/-- The next step after `withFetchWord` dispatches the word's own step 2, and the word's cycle ends where `exec` of
its instruction does. `withFetchWord` is the model's own (log entry 14). -/
def Obligations.FetchWordIsRunNext : Prop :=
  ∀ (s : State) (w : Nat) (i : Instr), decodeTableWord 8 w = some i →
    ∃ t, t = s.withFetchWord 8 w ∧
      t.ir = BitVec.ofNat 8 w ∧ t.pc = s.pc + 1 ∧ t.stepCounter = 2 ∧ t.halt = false ∧
      t.a = s.a ∧ t.b = s.b ∧ t.out = s.out ∧ t.log = s.log ∧
      step t = .next (microStep reference t) ∧ runWith reference 3 t = exec i t

/-- The execute steps of LDA a: A takes cell `a`, which stays selected and on the bus; IR holds the word, the cycle
ends at step 0, and nothing else changes. That `exec` is the execute steps alone, from any state with the word put in
IR and s set to 2 first, is the model's choice (log entry 13); PC is the fetch's (FetchCycleLoadsTheWord). The steps
are the spec's decision D5 (45_instructions.md R88, log entry 3). -/
def Obligations.LdaLoadsTheCell : Prop :=
  ∀ (addr : Nibble) (s : State), s.halt = false →
    exec (.lda addr) s =
      .next { s with a := s.mem.read addr, mar := addr, bus := s.mem.read addr, ir := 0x1#4 ++ addr, stepCounter := 0 }

/-- The execute steps of ADD a: B takes cell `a` and A the sum of the old A and the cell modulo 256; MAR is `a`, BUS the
sum, IR the word, the cycle ends at step 0, and nothing else changes. That `exec` is the execute steps alone is the
model's choice (log entry 13); PC is the fetch's. The steps are the spec's decision D5 (45_instructions.md R89, log
entry 3). -/
def Obligations.AddAddsTheCell : Prop :=
  ∀ (addr : Nibble) (s : State), s.halt = false →
    ∃ r : Byte, r.toNat = (s.a.toNat + (s.mem.read addr).toNat) % 256 ∧
    exec (.add addr) s =
      .next { s with
        b := s.mem.read addr, a := r, mar := addr, bus := r, ir := 0x2#4 ++ addr, stepCounter := 0 }

/-- The execute steps of OUT: OUT takes A and one event, its unsigned value, is emitted, whatever the low four bits of
the word; BUS is A, IR the word, the cycle ends at step 0, and nothing else changes. That `exec` is the execute steps
alone is the model's choice (log entry 13); MAR and PC are the fetch's. The steps and the ignored bits are the spec's
decisions D5 and D14 (45_instructions.md R90, log entries 3 and 18). -/
def Obligations.OutEmitsTheAccumulator : Prop :=
  ∀ (low : Nibble) (s : State), s.halt = false →
    exec (.out low) s =
      .next { s with out := s.a, log := s.log ++ [s.a.toNat], bus := s.a, ir := 0xE#4 ++ low, stepCounter := 0 }

/-- The execute step of HLT: the halt flag is set at step 2 and the step counter stands at 3, whatever the low four
bits of the word; IR is the word, and nothing else changes. That `exec` is the execute steps alone is the model's
choice (log entry 13); MAR, BUS and PC are the fetch's. The steps and the ignored bits are the spec's decisions D5 and
D14 (45_instructions.md R91, log entries 3 and 18). -/
def Obligations.HltSetsHaltAtStepThree : Prop :=
  ∀ (low : Nibble) (s : State), s.halt = false →
    exec (.hlt low) s = .next { s with halt := true, ir := 0xF#4 ++ low, stepCounter := 3 }

/-- The execute steps of the twelve unmapped opcodes: IR holds the word, the cycle ends at step 0, and nothing else
changes. That `exec` is the execute steps alone is the model's choice (log entry 13); MAR, BUS and PC are the fetch's.
That there is neither an execute step nor a diagnostic is the spec's decisions D5, D6 and D7 (45_instructions.md R92,
log entries 3, 4 and 23). -/
def Obligations.UnmappedOpcodesDoNothing : Prop :=
  ∀ (low : Nibble) (s : State), s.halt = false →
    exec (.unmapped0 low) s = .next { s with ir := 0x0#4 ++ low, stepCounter := 0 } ∧
    exec (.unmapped3 low) s = .next { s with ir := 0x3#4 ++ low, stepCounter := 0 } ∧
    exec (.unmapped4 low) s = .next { s with ir := 0x4#4 ++ low, stepCounter := 0 } ∧
    exec (.unmapped5 low) s = .next { s with ir := 0x5#4 ++ low, stepCounter := 0 } ∧
    exec (.unmapped6 low) s = .next { s with ir := 0x6#4 ++ low, stepCounter := 0 } ∧
    exec (.unmapped7 low) s = .next { s with ir := 0x7#4 ++ low, stepCounter := 0 } ∧
    exec (.unmapped8 low) s = .next { s with ir := 0x8#4 ++ low, stepCounter := 0 } ∧
    exec (.unmapped9 low) s = .next { s with ir := 0x9#4 ++ low, stepCounter := 0 } ∧
    exec (.unmapped10 low) s = .next { s with ir := 0xA#4 ++ low, stepCounter := 0 } ∧
    exec (.unmapped11 low) s = .next { s with ir := 0xB#4 ++ low, stepCounter := 0 } ∧
    exec (.unmapped12 low) s = .next { s with ir := 0xC#4 ++ low, stepCounter := 0 } ∧
    exec (.unmapped13 low) s = .next { s with ir := 0xD#4 ++ low, stepCounter := 0 }

/-- On a halted machine no instruction word has any effect (60_exceptions.md R106; that `exec` says so by leaving
the state is the model's choice, log entry 13). -/
def Obligations.HaltedMachineExecutesNothing : Prop :=
  ∀ (w : Byte) (i : Instr) (s : State), s.halt = true → decode (.cell w) = .ok i → exec i s = .next s

/-- THE MACRO-STEP: for every step count of the range, S micro-steps from an instruction boundary are the function of
45_instructions.md R93, HLT's shorter cycle included, since a halted machine stands. Rests on the spec's decisions D1,
D5 and D6 (log entries 2, 3 and 4). -/
def Obligations.MicroStepsRefineTheMacroStep : Prop :=
  ∀ (S : Nat) (s : State), 5 ≤ S → S ≤ 8 → s.atBoundary →
    runWith (referenceWith S) S s = .next (macroStep s)

/-- From a boundary at a HLT word the run ends after exactly three micro-steps, in the state of 45_instructions.md
R91, and stays in it for ever (70_reset_and_hazards.md R118, 60_exceptions.md R106). Rests on decisions D5 and D6 (log
entries 3 and 4). -/
def Obligations.HltEndsTheRunAfterThreeSteps : Prop :=
  ∀ (S : Nat) (s : State), 5 ≤ S → S ≤ 8 → s.atBoundary → opcodeOf (s.mem.read s.pc) = 15 →
    (∀ n, n < 3 → ∃ t, runWith (referenceWith S) n s = .next t ∧ t.halt = false) ∧
    (∀ n, runWith (referenceWith S) (3 + n) s =
      .next { s with halt := true, stepCounter := 3, mar := s.pc, bus := s.mem.read s.pc,
                     ir := s.mem.read s.pc, pc := s.pc + 1 }) ∧
    HaltsWithin (referenceWith S) 3 s

/-- WHO WRITES WHAT under the reference matrix, for each element of the state: one step changes A only in LDA's step 3
and ADD's step 4, B only in ADD's step 3, OUT and LOG only in OUT's step 2, halt only in HLT's step 2, MAR only in
fetch step 0 and step 2 of LDA and ADD, BUS only in the steps whose list has a producer (the two fetch steps, steps 2
and 3 of LDA and ADD, ADD's step 4, OUT's step 2), IR and PC only in fetch step 1, where PC advances by one, and memory
never; the step counter advances by one modulo 5 unless the machine is halted (30_encoding.md R50, 20_memory.md R30,
41_program_counter.md R62). Rests on decisions D1, D5 and D6 (log entries 2, 3 and 4). -/
def Obligations.ReferenceStepWritesOnlyItsRegisters : Prop :=
  ∀ s t : State, s.stepCounter.toNat < 5 → step s = .next t →
    t.mem = s.mem ∧
    (t.a ≠ s.a → (s.opcode = 1 ∧ s.stepCounter = 3) ∨ (s.opcode = 2 ∧ s.stepCounter = 4)) ∧
    (t.b ≠ s.b → s.opcode = 2 ∧ s.stepCounter = 3) ∧
    (t.out ≠ s.out ∨ t.log ≠ s.log → s.opcode = 14 ∧ s.stepCounter = 2) ∧
    (t.halt ≠ s.halt → s.opcode = 15 ∧ s.stepCounter = 2) ∧
    (t.mar ≠ s.mar → s.stepCounter = 0 ∨ ((s.opcode = 1 ∨ s.opcode = 2) ∧ s.stepCounter = 2)) ∧
    (t.bus ≠ s.bus → s.stepCounter = 0 ∨ s.stepCounter = 1 ∨
      ((s.opcode = 1 ∨ s.opcode = 2) ∧ (s.stepCounter = 2 ∨ s.stepCounter = 3)) ∨
      (s.opcode = 2 ∧ s.stepCounter = 4) ∨ (s.opcode = 14 ∧ s.stepCounter = 2)) ∧
    (t.ir ≠ s.ir → s.stepCounter = 1) ∧
    t.stepCounter.toNat = (if s.halt then s.stepCounter.toNat else (s.stepCounter.toNat + 1) % 5) ∧
    (s.halt = true → t = s) ∧
    (s.halt = false → t.pc = if s.stepCounter = 1 then s.pc + 1 else s.pc)

/-! ## Invariants and runs -/

/-- Under any configuration a step keeps the canonical memory, the range of the step counter, the range of LOG's
entries and OUT as the last event (10_state.md R18, R21; the memory's form is the model's own, log entry 9). -/
def Obligations.AnyMatrixKeepsTheStateGood : Prop :=
  ∀ (c : Config) (s t : State), c.wf = true → Inv c.steps s → stepWith c s = .next t → Inv c.steps t

/-- EVERY STEP KEEPS THE INVARIANT of the reference build: besides the above, PC names the cell after the one in IR
from the end of the fetch to the end of the cycle, MAR holds PC between the fetch steps, and a halted machine stands
after a HLT's step 2 (10_state.md R10, 44_sequencer.md R80, 45_instructions.md R91). Rests on decisions D1, D5 and
D6 (log entries 2, 3 and 4). -/
def Obligations.StepKeepsTheReferenceState : Prop :=
  ∀ s t : State, ReferenceInv s → step s = .next t → ReferenceInv t

/-- The reset state, with any image loaded, meets the invariant of the reference build (10_state.md R24,
70_reset_and_hazards.md R107; the values are the spec's decisions D8 and D9, log entries 7 and 8). -/
def Obligations.LaunchMeetsTheReferenceState : Prop :=
  ReferenceInv State.reset ∧ ∀ image : List (Nibble × Byte), ReferenceInv (launch image)

/-- NON-TERMINATION: a machine that stands at an instruction boundary with no HLT word in memory never halts, and no
ceiling on the driving loop makes it (70_reset_and_hazards.md R115, 60_exceptions.md R95). Rests on decisions D1, D5
and D6 (log entries 2, 3 and 4). -/
def Obligations.WithoutHltItNeverHalts : Prop :=
  ∀ s : State, s.atBoundary → s.noHlt →
    ∀ n, (∃ t, runWith reference n s = .next t ∧ t.halt = false) ∧ ¬ HaltsWithin reference n s

/-- THE LENGTH OF A RUN: a machine at an instruction boundary whose next `n` cells hold no HLT word and whose cell
after them does halts at micro-step `n·S + 3` and not before, in HLT's row at step 3, `n + 1` cells on
(70_reset_and_hazards.md R118, 41_program_counter.md R62). Rests on decisions D1, D5 and D6 (log entries 2, 3 and
4). -/
def Obligations.RunHaltsAfterNTimesSPlus3 : Prop :=
  ∀ (S n : Nat) (s : State), 5 ≤ S → S ≤ 8 → s.atBoundary →
    (∀ j, j < n → opcodeOf (s.mem.read (s.pc + BitVec.ofNat 4 j)) ≠ 15) →
    opcodeOf (s.mem.read (s.pc + BitVec.ofNat 4 n)) = 15 →
    (∀ m, m < n * S + 3 → ∃ t, runWith (referenceWith S) m s = .next t ∧ t.halt = false) ∧
    (∃ t, runWith (referenceWith S) (n * S + 3) s = .next t ∧ t.halt = true ∧ t.opcode = 15 ∧ t.stepCounter = 3 ∧
      t.pc = s.pc + BitVec.ofNat 4 (n + 1))

/-- THE LAUNCH VALUES THAT DO NOT MATTER: two machines at a boundary with the same PC, memory, A and LOG keep the same
PC, memory, A, LOG, step counter and halt flag for ever, whatever BUS, MAR, B, IR and OUT hold. BUS and MAR are equal
from the first micro-step on and IR from the second; B and OUT, which last until ADD and OUT write them, stay equal if
they are equal. So no event and no halt of a run under the reference matrix rests on the reset values decided for
these five (10_state.md R24, closing paragraph; log entry 7). Rests on decisions D1, D5 and D6 (log entries 2, 3 and
4). -/
def Obligations.LaunchValuesOfFiveRegistersDoNotMatter : Prop :=
  ∀ s t : State, s.atBoundary → t.atBoundary → s.pc = t.pc → s.mem = t.mem → s.a = t.a → s.log = t.log →
    ∀ n, ∃ s' t', runWith reference n s = .next s' ∧ runWith reference n t = .next t' ∧
      s'.pc = t'.pc ∧ s'.mem = t'.mem ∧ s'.a = t'.a ∧ s'.log = t'.log ∧
      s'.stepCounter = t'.stepCounter ∧ s'.halt = t'.halt ∧
      (1 ≤ n → s'.bus = t'.bus ∧ s'.mar = t'.mar) ∧ (2 ≤ n → s'.ir = t'.ir) ∧
      (s.b = t.b → s'.b = t'.b) ∧ (s.out = t.out → s'.out = t'.out)

/-- Two memories in canonical form that read the same at every address are equal. The form is the model's own (log
entry 9). -/
def Obligations.CanonicalMemoriesAreEqual : Prop :=
  ∀ m n : Memory, m.wf = true → n.wf = true → (∀ a : Nibble, m.read a = n.read a) → m = n

/-! ## Reset, loading and the ports -/

/-- Reset: halt is false, PC and the step counter are zero, LOG is empty, and, by the spec's decisions D8 and D9 (log
entries 7 and 8), every other register and every cell is zero (10_state.md R24). -/
def Obligations.ResetValues : Prop :=
  State.reset.halt = false ∧ State.reset.pc = 0 ∧ State.reset.stepCounter = 0 ∧ State.reset.log = [] ∧
  State.reset.ir = 0 ∧ State.reset.bus = 0 ∧ State.reset.mar = 0 ∧ State.reset.a = 0 ∧ State.reset.b = 0 ∧
  State.reset.out = 0 ∧ (∀ a : Nibble, State.reset.mem.read a = 0) ∧ core.reset = State.reset

/-- The launch state is the reset state with memory equal to the loaded image: each cell holds the last value the
loader gave it, or, by decision D9 (log entry 8), zero (70_reset_and_hazards.md R107, 42_ram.md R66). -/
def Obligations.LaunchStateHoldsTheImage : Prop :=
  ∀ image : List (Nibble × Byte), ∃ m : Memory,
    launch image = { State.reset with mem := m } ∧ m.wf = true ∧
    ∀ a : Nibble, m.read a = (lastLoaded image a).getD 0

/-- One clock edge at the pins: reset above all, then a micro-step if run is 1, then the loader's write, else
nothing; and the outputs after it: OUT, halt, and a pulse exactly when the edge was a micro-step that grew LOG. The
ports are the spec's decision D11 (10_state.md R25 to R27, log entry 12). -/
def Obligations.ClockEdgeAtThePins : Prop :=
  ∀ (c : Config) (p : Pins) (s : State),
    (p.rst = true → edge c p s = State.reset) ∧
    (p.rst = false → p.run = true → stepWith c s = .next (edge c p s)) ∧
    (p.rst = false → p.run = false → p.ldEn = true → edge c p s = setCell p.ldAddr p.ldData s) ∧
    (p.rst = false → p.run = false → p.ldEn = false → edge c p s = s) ∧
    (edgeOutputs c p s).outData = (edge c p s).out ∧ (edgeOutputs c p s).halted = (edge c p s).halt ∧
    ((edgeOutputs c p s).outValid = true ↔
      p.rst = false ∧ p.run = true ∧ s.halt = false ∧ s.log.length < (edge c p s).log.length)

/-- The loader port asserted after the run has started is refused, by its own name; every other edge of a session is
the core's edge, and what counts as started is `run` having been 1 since the last reset (70_reset_and_hazards.md R117,
decision D17, log entry 12). -/
def Obligations.LoaderPortRefusedDuringARun : Prop :=
  ∀ (c : Config) (p : Pins) (x : Session),
    (p.rst = false ∧ p.ldEn = true ∧ x.started = true → Session.edge c p x = .refused .loaderAfterStart) ∧
    (¬ (p.rst = false ∧ p.ldEn = true ∧ x.started = true) →
      ∃ b, Session.edge c p x = .next ⟨edge c p x.core, b⟩ ∧
        (b = true ↔ p.rst = false ∧ (p.run = true ∨ x.started = true)))

/-! ## Runs without HLT -/

/-- EVERY STEP KEEPS A MACHINE WITHOUT HLT RUNNING: from a running state that meets the invariant of the reference
build and has no HLT word in memory, at whatever micro-step, a step answers a running state that meets it and has none.
It is the step lemma behind WithoutHltItNeverHalts (70_reset_and_hazards.md R115, 44_sequencer.md R82). Rests on
decisions D1, D5 and D6 (log entries 2, 3 and 4). -/
def Obligations.StepKeepsAMachineWithoutHltRunning : Prop :=
  ∀ s : State, ReferenceInv s → s.noHlt → s.halt = false →
    ∃ t, step s = .next t ∧ ReferenceInv t ∧ t.noHlt ∧ t.halt = false
end

