-- ==== Sys2Proof/Laws/Bits.lean ====
section
/-! SUPPORT. What the conversions, `fit` and the program counter's ripple compute (00_scope.md R5,
40_bus_register_fit.md R53, 41_program_counter.md R59). -/

namespace Sys2Proof.Machine

theorem bits_length {n : Nat} (v : BitVec n) : (bits v).length = n := by simp [bits]

/-- The weight of the first bit and of the others (00_scope.md R5). -/
theorem bitsToNat_cons (b : Bool) (rest : List Bool) :
    bitsToNat (b :: rest) = b.toNat + 2 * bitsToNat rest := by
  cases b
  · simp [bitsToNat]
  · simp only [bitsToNat, Bool.toNat_true, if_true]
    omega

theorem bitsToNat_lt (bs : List Bool) : bitsToNat bs < 2 ^ bs.length := by
  induction bs with
  | nil => simp [bitsToNat]
  | cons b rest ih =>
    have : b.toNat < 2 := b.toNat_lt
    simp only [bitsToNat_cons, List.length_cons, Nat.pow_succ]
    omega

/-- Bit `k` of the number a sequence of bits weighs is its element `k`. -/
theorem testBit_bitsToNat (bs : List Bool) (k : Nat) : (bitsToNat bs).testBit k = bs.getD k false := by
  induction bs generalizing k with
  | nil => simp [bitsToNat]
  | cons b rest ih =>
    cases k with
    | zero => cases b <;> simp [bitsToNat, Nat.testBit_zero]
    | succ k =>
      have h : (b.toNat + 2 * bitsToNat rest) / 2 = bitsToNat rest := by
        have : b.toNat < 2 := b.toNat_lt
        omega
      simp [bitsToNat_cons, Nat.testBit_succ, h, ih]

/-- Bit `k` of the vector built from a sequence of bits is its element `k`, and false above it. -/
theorem getLsbD_fromBits (n : Nat) (bs : List Bool) (k : Nat) :
    (fromBits n bs).getLsbD k = (decide (k < n) && bs.getD k false) := by
  simp [fromBits, BitVec.getLsbD_ofNat, testBit_bitsToNat]

/-- A vector is built from its own bits. -/
@[simp] theorem fromBits_bits {n : Nat} (v : BitVec n) : fromBits n (bits v) = v := by
  apply BitVec.eq_of_getLsbD_eq
  intro k hk
  rw [getLsbD_fromBits]
  simp [hk, bits]

/-- `toInt` is the unsigned value (00_scope.md R5). -/
@[simp] theorem toInt_eq_toNat {n : Nat} (v : BitVec n) : toInt v = v.toNat := by
  have h : bitsToNat (bits v) < 2 ^ n := by simpa [bits_length] using bitsToNat_lt (bits v)
  have := congrArg BitVec.toNat (fromBits_bits v)
  simpa [toInt, fromBits, Nat.mod_eq_of_lt h] using this

/-- With the default every transfer uses, `fit` truncates or extends with zeros. -/
@[simp] theorem fit_eq_setWidth {m : Nat} (n : Nat) (v : BitVec m) : fit n v = v.setWidth n := by
  apply BitVec.eq_of_getLsbD_eq
  intro k hk
  unfold fit
  rw [getLsbD_fromBits]
  by_cases hm : k < m
  · simp [hk, hm]
  · simp [hk, hm, BitVec.getLsbD_of_ge v k (by omega)]

/-- The ripple of 41_program_counter.md R59 is addition of one modulo 16. -/
@[simp] theorem pcSuccessor_eq (p : Nibble) : pcSuccessor p = p + 1 := by
  revert p
  decide

end Sys2Proof.Machine
end

