-- ==== Sys2Proof/Laws/Memory.lean ====
section
/-! SUPPORT. The laws of the memory: read after write, and the canonical form that every operation keeps
(20_memory.md R34, R37; log entry 9). -/

namespace Sys2Proof.Machine

/-! ## Cells -/

@[simp] theorem cell_erase_same (m : Memory) (k : Nat) : Memory.cell (Memory.erase m k) k = Memory.unlisted := by
  induction m with
  | nil => rfl
  | cons e rest ih =>
    obtain ⟨j, v⟩ := e
    by_cases h : j = k <;> simp [Memory.erase, Memory.cell, h, ih]

theorem cell_erase_other (m : Memory) {j k : Nat} (h : j ≠ k) :
    Memory.cell (Memory.erase m k) j = Memory.cell m j := by
  induction m with
  | nil => rfl
  | cons e rest ih =>
    obtain ⟨i, v⟩ := e
    by_cases hk : i = k
    · have : i ≠ j := fun hj => h (hj.symm.trans hk)
      simp [Memory.erase, Memory.cell, hk, ih, Ne.symm h]
    · by_cases hj : i = j
      · subst hj
        simp [Memory.erase, Memory.cell, hk]
      · simp [Memory.erase, Memory.cell, hk, hj, ih]

theorem cell_insert_other (m : Memory) {j k : Nat} (v : Byte) (h : j ≠ k) :
    Memory.cell (Memory.insert m k v) j = Memory.cell m j := by
  induction m with
  | nil => simp [Memory.insert, Memory.cell, Ne.symm h]
  | cons e rest ih =>
    obtain ⟨i, w⟩ := e
    by_cases hk : k < i <;> simp [Memory.insert, Memory.cell, hk, ih, Ne.symm h]

theorem cell_insert_erase (m : Memory) (k : Nat) (v : Byte) :
    Memory.cell (Memory.insert (Memory.erase m k) k v) k = v := by
  induction m with
  | nil => simp [Memory.erase, Memory.insert, Memory.cell]
  | cons e rest ih =>
    obtain ⟨i, w⟩ := e
    by_cases hk : i = k
    · simpa [Memory.erase, hk] using ih
    · by_cases hlt : k < i <;> simp [Memory.erase, Memory.insert, Memory.cell, hk, hlt, ih]

/-- A read after a write to the same cell gives the value written. -/
@[simp] theorem read_write_same (m : Memory) (a : Nibble) (v : Byte) : (m.write a v).read a = v := by
  unfold Memory.write Memory.read
  by_cases h : v = Memory.unlisted
  · simp [h]
  · simp [h, cell_insert_erase]

/-- A write leaves every other cell alone. -/
theorem read_write_other (m : Memory) {a c : Nibble} (v : Byte) (h : c ≠ a) :
    (m.write a v).read c = m.read c := by
  have hn : c.toNat ≠ a.toNat := fun e => h (BitVec.eq_of_toNat_eq e)
  unfold Memory.write Memory.read
  by_cases hv : v = Memory.unlisted
  · simp [hv, cell_erase_other m hn]
  · simp [hv, cell_insert_other _ v hn, cell_erase_other m hn]

/-! ## The canonical form -/

theorem wfFrom_mono {lo hi : Nat} {m : Memory} (h : Memory.wfFrom hi m = true) (hle : lo ≤ hi) :
    Memory.wfFrom lo m = true := by
  cases m with
  | nil => rfl
  | cons e rest =>
    obtain ⟨j, v⟩ := e
    simp only [Memory.wfFrom, Bool.and_eq_true, decide_eq_true_eq] at h ⊢
    obtain ⟨⟨⟨h1, h2⟩, h3⟩, h4⟩ := h
    exact ⟨⟨⟨by omega, h2⟩, h3⟩, h4⟩

theorem wfFrom_erase {lo : Nat} {m : Memory} (k : Nat) (h : Memory.wfFrom lo m = true) :
    Memory.wfFrom lo (Memory.erase m k) = true := by
  induction m generalizing lo with
  | nil => rfl
  | cons e rest ih =>
    obtain ⟨j, v⟩ := e
    simp only [Memory.wfFrom, Bool.and_eq_true, decide_eq_true_eq] at h
    obtain ⟨⟨⟨h1, h2⟩, h3⟩, h4⟩ := h
    by_cases hk : j = k
    · simpa [Memory.erase, hk] using ih (wfFrom_mono h4 (by omega))
    · simp [Memory.erase, hk, Memory.wfFrom, h1, h2, h3, ih h4]

theorem wfFrom_insert_erase {lo : Nat} {m : Memory} {k : Nat} {v : Byte} (h : Memory.wfFrom lo m = true)
    (hlo : lo ≤ k) (hk : k < 16) (hv : v ≠ Memory.unlisted) :
    Memory.wfFrom lo (Memory.insert (Memory.erase m k) k v) = true := by
  induction m generalizing lo with
  | nil => simp [Memory.erase, Memory.insert, Memory.wfFrom, hlo, hk, hv]
  | cons e rest ih =>
    obtain ⟨j, w⟩ := e
    have h' := h
    simp only [Memory.wfFrom, Bool.and_eq_true, decide_eq_true_eq] at h
    obtain ⟨⟨⟨h1, h2⟩, h3⟩, h4⟩ := h
    rcases Nat.lt_trichotomy k j with hlt | heq | hgt
    · have hne : j ≠ k := by omega
      have hr := wfFrom_erase k h4
      have hj : k + 1 ≤ j := by omega
      simp [Memory.erase, Memory.insert, Memory.wfFrom, hne, hlt, hlo, hk, hv, hj, h2, h3, hr]
    · subst heq
      simpa [Memory.erase] using ih (wfFrom_mono h4 (by omega)) hlo
    · have hne : j ≠ k := by omega
      have hnl : ¬ k < j := by omega
      simp [Memory.erase, Memory.insert, Memory.wfFrom, hne, hnl, h1, h2, h3, ih h4 (by omega)]

/-- Writing a cell keeps the canonical form. -/
theorem write_wf {m : Memory} (a : Nibble) (v : Byte) (h : m.wf = true) : (m.write a v).wf = true := by
  unfold Memory.write Memory.wf
  by_cases hv : v = Memory.unlisted
  · simpa [hv] using wfFrom_erase _ h
  · simpa [hv] using wfFrom_insert_erase h (Nat.zero_le _) a.isLt hv

/-- The loader's writes keep the canonical form. -/
theorem setCell_wf {s : State} (a : Nibble) (v : Byte) (h : s.mem.wf = true) : (setCell a v s).mem.wf = true :=
  write_wf a v h

/-- RAM_IN keeps the canonical form. -/
theorem ramIn_wf {s : State} (h : s.mem.wf = true) : (ramIn s).mem.wf = true :=
  write_wf _ _ h

/-- Loading an image keeps the canonical form. -/
theorem loadImage_wf (image : List (Nibble × Byte)) {s : State} (h : s.mem.wf = true) :
    (loadImage image s).mem.wf = true := by
  induction image generalizing s with
  | nil => exact h
  | cons e rest ih => exact ih (setCell_wf e.1 e.2 h)

/-- The memory after reset is in canonical form. -/
theorem reset_wf : State.reset.mem.wf = true := rfl

end Sys2Proof.Machine
end

