-- ==== Sys2Proof/Laws/Microcode.lean ====
section
/-! SUPPORT. The rows of M_ref, entry by entry (30_encoding.md R50). -/

namespace Sys2Proof.Machine

@[simp] theorem referenceMatrix_step0 (op : Nibble) : referenceMatrix op 0#3 = fetchStep0 := rfl

@[simp] theorem referenceMatrix_step1 (op : Nibble) : referenceMatrix op 1#3 = fetchStep1 := rfl

@[simp] theorem lda_step2 : referenceMatrix 1#4 2#3 = [.irOut, .marIn] := rfl

@[simp] theorem lda_step3 : referenceMatrix 1#4 3#3 = [.ramOut, .aIn] := rfl

@[simp] theorem add_step2 : referenceMatrix 2#4 2#3 = [.irOut, .marIn] := rfl

@[simp] theorem add_step3 : referenceMatrix 2#4 3#3 = [.ramOut, .bIn] := rfl

@[simp] theorem add_step4 : referenceMatrix 2#4 4#3 = [.aluOut, .aIn] := rfl

@[simp] theorem out_step2 : referenceMatrix 14#4 2#3 = [.aOut, .outIn] := rfl

@[simp] theorem hlt_step2 : referenceMatrix 15#4 2#3 = [.halt] := rfl

/-- The entry of a row at an execute step. -/
theorem referenceMatrix_execute (op : Nibble) {k : StepIndex} {j : Nat} (h : k.toNat = j + 2) :
    referenceMatrix op k = (referenceExecute op).getD j [] := by
  simp [referenceMatrix, h]

/-- Past its listed execute steps a row is empty. -/
theorem referenceMatrix_empty {op : Nibble} {k : StepIndex} (h : (referenceExecute op).length + 2 ≤ k.toNat) :
    referenceMatrix op k = [] := by
  obtain ⟨j, hj⟩ : ∃ j, k.toNat = j + 2 := ⟨k.toNat - 2, by omega⟩
  rw [referenceMatrix_execute op hj, List.getD_eq_default]
  omega

/-- The rows of the unmapped opcodes have no execute steps (45_instructions.md R92). -/
theorem referenceExecute_unmapped {op : Nibble} (h1 : op ≠ 1) (h2 : op ≠ 2) (h14 : op ≠ 14) (h15 : op ≠ 15) :
    referenceExecute op = [] := by
  unfold referenceExecute
  rw [if_neg h1, if_neg h2, if_neg h14, if_neg h15]

/-- RAM_IN, PC_IN, B_OUT and ALU_SUB_OUT are on no list of M_ref, IR_IN and PC_INC only on step 1
(30_encoding.md R47, closing paragraph; R50). -/
theorem referenceMatrix_unused (op : Nibble) (k : StepIndex) :
    Signal.ramIn ∉ referenceMatrix op k ∧ Signal.pcIn ∉ referenceMatrix op k ∧
    Signal.bOut ∉ referenceMatrix op k ∧ Signal.aluSubOut ∉ referenceMatrix op k ∧
    (k ≠ 1 → Signal.irIn ∉ referenceMatrix op k ∧ Signal.pcInc ∉ referenceMatrix op k) := by
  revert op k
  decide

/-- The two fields of a word built from them. -/
@[simp] theorem opcodeOf_cellWord (op low : Nibble) : opcodeOf (cellWord op low) = op := by
  revert op low
  decide

@[simp] theorem addrOf_cellWord (op low : Nibble) : addrOf (cellWord op low) = low := by
  revert op low
  decide

/-- A word is built from its two fields. -/
@[simp] theorem cellWord_fields (w : Byte) : cellWord (opcodeOf w) (addrOf w) = w := by
  revert w
  decide

end Sys2Proof.Machine
end

