-- ==== Sys2Proof/Laws/PerInstr.lean ====
section
/-! SUPPORT. Statements made for every instruction, one lemma a constructor.

`TableRow`: the encoded bits of the row carry the fixed bits that spec/opcode_table.json gives it: an instruction
word masked with the row's mask is the row's match (30_encoding.md R44, R45), and a control signal's slot is the
row's five bits (R47, R49). -/

namespace Sys2Proof.Laws

/-- The fixed bits of each row of spec/opcode_table.json: match under mask 0xF0 of an instruction word, or the five
bits of a slot. -/
def TableRow.fixedBits : Instr → Code
  | .lda _ => .cell 0x10
  | .add _ => .cell 0x20
  | .out _ => .cell 0xE0
  | .hlt _ => .cell 0xF0
  | .unmapped0 _ => .cell 0x00
  | .unmapped3 _ => .cell 0x30
  | .unmapped4 _ => .cell 0x40
  | .unmapped5 _ => .cell 0x50
  | .unmapped6 _ => .cell 0x60
  | .unmapped7 _ => .cell 0x70
  | .unmapped8 _ => .cell 0x80
  | .unmapped9 _ => .cell 0x90
  | .unmapped10 _ => .cell 0xA0
  | .unmapped11 _ => .cell 0xB0
  | .unmapped12 _ => .cell 0xC0
  | .unmapped13 _ => .cell 0xD0
  | .pcOut => .slot 0b10000
  | .pcIn => .slot 0b10001
  | .pcInc => .slot 0b10010
  | .marIn => .slot 0b10011
  | .ramIn => .slot 0b10100
  | .ramOut => .slot 0b10101
  | .irIn => .slot 0b10110
  | .irOut => .slot 0b10111
  | .aIn => .slot 0b11000
  | .aOut => .slot 0b11001
  | .bIn => .slot 0b11010
  | .bOut => .slot 0b11011
  | .aluOut => .slot 0b11100
  | .aluSubOut => .slot 0b11101
  | .outIn => .slot 0b11110
  | .halt => .slot 0b11111

/-- The bits of an encoded row that its `mask` keeps: the high four of an instruction word, all five of a slot. -/
def TableRow.masked : Code → Code
  | .cell w => .cell (w &&& 0xF0)
  | .slot w => .slot w

/-- The encoding of the row carries the row's fixed bits. -/
def TableRow.Statement (i : Instr) : Prop := TableRow.masked (encode i) = TableRow.fixedBits i

theorem TableRow.lda (x : Nibble) : TableRow.Statement (.lda x) := by
  revert x; unfold TableRow.Statement; decide
theorem TableRow.add (x : Nibble) : TableRow.Statement (.add x) := by
  revert x; unfold TableRow.Statement; decide
theorem TableRow.out (x : Nibble) : TableRow.Statement (.out x) := by
  revert x; unfold TableRow.Statement; decide
theorem TableRow.hlt (x : Nibble) : TableRow.Statement (.hlt x) := by
  revert x; unfold TableRow.Statement; decide
theorem TableRow.unmapped0 (x : Nibble) : TableRow.Statement (.unmapped0 x) := by
  revert x; unfold TableRow.Statement; decide
theorem TableRow.unmapped3 (x : Nibble) : TableRow.Statement (.unmapped3 x) := by
  revert x; unfold TableRow.Statement; decide
theorem TableRow.unmapped4 (x : Nibble) : TableRow.Statement (.unmapped4 x) := by
  revert x; unfold TableRow.Statement; decide
theorem TableRow.unmapped5 (x : Nibble) : TableRow.Statement (.unmapped5 x) := by
  revert x; unfold TableRow.Statement; decide
theorem TableRow.unmapped6 (x : Nibble) : TableRow.Statement (.unmapped6 x) := by
  revert x; unfold TableRow.Statement; decide
theorem TableRow.unmapped7 (x : Nibble) : TableRow.Statement (.unmapped7 x) := by
  revert x; unfold TableRow.Statement; decide
theorem TableRow.unmapped8 (x : Nibble) : TableRow.Statement (.unmapped8 x) := by
  revert x; unfold TableRow.Statement; decide
theorem TableRow.unmapped9 (x : Nibble) : TableRow.Statement (.unmapped9 x) := by
  revert x; unfold TableRow.Statement; decide
theorem TableRow.unmapped10 (x : Nibble) : TableRow.Statement (.unmapped10 x) := by
  revert x; unfold TableRow.Statement; decide
theorem TableRow.unmapped11 (x : Nibble) : TableRow.Statement (.unmapped11 x) := by
  revert x; unfold TableRow.Statement; decide
theorem TableRow.unmapped12 (x : Nibble) : TableRow.Statement (.unmapped12 x) := by
  revert x; unfold TableRow.Statement; decide
theorem TableRow.unmapped13 (x : Nibble) : TableRow.Statement (.unmapped13 x) := by
  revert x; unfold TableRow.Statement; decide
theorem TableRow.pcOut : TableRow.Statement .pcOut := by unfold TableRow.Statement; decide
theorem TableRow.pcIn : TableRow.Statement .pcIn := by unfold TableRow.Statement; decide
theorem TableRow.pcInc : TableRow.Statement .pcInc := by unfold TableRow.Statement; decide
theorem TableRow.marIn : TableRow.Statement .marIn := by unfold TableRow.Statement; decide
theorem TableRow.ramIn : TableRow.Statement .ramIn := by unfold TableRow.Statement; decide
theorem TableRow.ramOut : TableRow.Statement .ramOut := by unfold TableRow.Statement; decide
theorem TableRow.irIn : TableRow.Statement .irIn := by unfold TableRow.Statement; decide
theorem TableRow.irOut : TableRow.Statement .irOut := by unfold TableRow.Statement; decide
theorem TableRow.aIn : TableRow.Statement .aIn := by unfold TableRow.Statement; decide
theorem TableRow.aOut : TableRow.Statement .aOut := by unfold TableRow.Statement; decide
theorem TableRow.bIn : TableRow.Statement .bIn := by unfold TableRow.Statement; decide
theorem TableRow.bOut : TableRow.Statement .bOut := by unfold TableRow.Statement; decide
theorem TableRow.aluOut : TableRow.Statement .aluOut := by unfold TableRow.Statement; decide
theorem TableRow.aluSubOut : TableRow.Statement .aluSubOut := by unfold TableRow.Statement; decide
theorem TableRow.outIn : TableRow.Statement .outIn := by unfold TableRow.Statement; decide
theorem TableRow.halt : TableRow.Statement .halt := by unfold TableRow.Statement; decide

end Sys2Proof.Laws
end

