-- ==== Sys2Proof/Laws/State.lean ====
section
/-! SUPPORT. One lemma for each field under each named update of State, so that no proof unfolds one. -/

namespace Sys2Proof.Machine

/-! ## `State.drive` -/

@[simp] theorem drive_bus (s : State) {n : Nat} (v : BitVec n) : (s.drive v).bus = fit 8 v := rfl
@[simp] theorem drive_pc (s : State) {n : Nat} (v : BitVec n) : (s.drive v).pc = s.pc := rfl
@[simp] theorem drive_mar (s : State) {n : Nat} (v : BitVec n) : (s.drive v).mar = s.mar := rfl
@[simp] theorem drive_mem (s : State) {n : Nat} (v : BitVec n) : (s.drive v).mem = s.mem := rfl
@[simp] theorem drive_a (s : State) {n : Nat} (v : BitVec n) : (s.drive v).a = s.a := rfl
@[simp] theorem drive_b (s : State) {n : Nat} (v : BitVec n) : (s.drive v).b = s.b := rfl
@[simp] theorem drive_ir (s : State) {n : Nat} (v : BitVec n) : (s.drive v).ir = s.ir := rfl
@[simp] theorem drive_out (s : State) {n : Nat} (v : BitVec n) : (s.drive v).out = s.out := rfl
@[simp] theorem drive_stepCounter (s : State) {n : Nat} (v : BitVec n) : (s.drive v).stepCounter = s.stepCounter := rfl
@[simp] theorem drive_halt (s : State) {n : Nat} (v : BitVec n) : (s.drive v).halt = s.halt := rfl
@[simp] theorem drive_log (s : State) {n : Nat} (v : BitVec n) : (s.drive v).log = s.log := rfl

/-! ## `State.writeCell` -/

@[simp] theorem writeCell_bus (s : State) (k : Nibble) (v : Byte) : (s.writeCell k v).bus = s.bus := rfl
@[simp] theorem writeCell_pc (s : State) (k : Nibble) (v : Byte) : (s.writeCell k v).pc = s.pc := rfl
@[simp] theorem writeCell_mar (s : State) (k : Nibble) (v : Byte) : (s.writeCell k v).mar = s.mar := rfl
@[simp] theorem writeCell_mem (s : State) (k : Nibble) (v : Byte) : (s.writeCell k v).mem = s.mem.write k v := rfl
@[simp] theorem writeCell_a (s : State) (k : Nibble) (v : Byte) : (s.writeCell k v).a = s.a := rfl
@[simp] theorem writeCell_b (s : State) (k : Nibble) (v : Byte) : (s.writeCell k v).b = s.b := rfl
@[simp] theorem writeCell_ir (s : State) (k : Nibble) (v : Byte) : (s.writeCell k v).ir = s.ir := rfl
@[simp] theorem writeCell_out (s : State) (k : Nibble) (v : Byte) : (s.writeCell k v).out = s.out := rfl
@[simp] theorem writeCell_stepCounter (s : State) (k : Nibble) (v : Byte) : (s.writeCell k v).stepCounter = s.stepCounter := rfl
@[simp] theorem writeCell_halt (s : State) (k : Nibble) (v : Byte) : (s.writeCell k v).halt = s.halt := rfl
@[simp] theorem writeCell_log (s : State) (k : Nibble) (v : Byte) : (s.writeCell k v).log = s.log := rfl

/-! ## `State.emit` -/

@[simp] theorem emit_bus (s : State) (n : Nat) : (s.emit n).bus = s.bus := rfl
@[simp] theorem emit_pc (s : State) (n : Nat) : (s.emit n).pc = s.pc := rfl
@[simp] theorem emit_mar (s : State) (n : Nat) : (s.emit n).mar = s.mar := rfl
@[simp] theorem emit_mem (s : State) (n : Nat) : (s.emit n).mem = s.mem := rfl
@[simp] theorem emit_a (s : State) (n : Nat) : (s.emit n).a = s.a := rfl
@[simp] theorem emit_b (s : State) (n : Nat) : (s.emit n).b = s.b := rfl
@[simp] theorem emit_ir (s : State) (n : Nat) : (s.emit n).ir = s.ir := rfl
@[simp] theorem emit_out (s : State) (n : Nat) : (s.emit n).out = s.out := rfl
@[simp] theorem emit_stepCounter (s : State) (n : Nat) : (s.emit n).stepCounter = s.stepCounter := rfl
@[simp] theorem emit_halt (s : State) (n : Nat) : (s.emit n).halt = s.halt := rfl
@[simp] theorem emit_log (s : State) (n : Nat) : (s.emit n).log = s.log ++ [n] := rfl

/-! ## `State.assertHalt` -/

@[simp] theorem assertHalt_bus (s : State) : (s.assertHalt).bus = s.bus := rfl
@[simp] theorem assertHalt_pc (s : State) : (s.assertHalt).pc = s.pc := rfl
@[simp] theorem assertHalt_mar (s : State) : (s.assertHalt).mar = s.mar := rfl
@[simp] theorem assertHalt_mem (s : State) : (s.assertHalt).mem = s.mem := rfl
@[simp] theorem assertHalt_a (s : State) : (s.assertHalt).a = s.a := rfl
@[simp] theorem assertHalt_b (s : State) : (s.assertHalt).b = s.b := rfl
@[simp] theorem assertHalt_ir (s : State) : (s.assertHalt).ir = s.ir := rfl
@[simp] theorem assertHalt_out (s : State) : (s.assertHalt).out = s.out := rfl
@[simp] theorem assertHalt_stepCounter (s : State) : (s.assertHalt).stepCounter = s.stepCounter := rfl
@[simp] theorem assertHalt_halt (s : State) : (s.assertHalt).halt = true := rfl
@[simp] theorem assertHalt_log (s : State) : (s.assertHalt).log = s.log := rfl

end Sys2Proof.Machine
end

