-- ==== Sys2Proof/Laws/Sequencer.lean ====
section
/-! SUPPORT. What a signal, a list and a clock step can change: the lemmas later proofs cite in place of unfolding
the sequencer (44_sequencer.md R78, R81, R84). -/

namespace Sys2Proof.Machine

/-! ## Signals and lists -/

/-- No control signal writes the step counter (10_state.md R18). -/
@[simp] theorem applySignal_stepCounter (σ : Signal) (s : State) :
    (applySignal σ s).stepCounter = s.stepCounter := by
  cases σ <;> rfl

/-- HALT is the only signal that writes the halt flag (10_state.md R19). -/
theorem applySignal_halt (σ : Signal) (s : State) :
    (applySignal σ s).halt = (s.halt || decide (σ = .halt)) := by
  cases σ <;> simp [applySignal, pcOut, pcIn, pcInc, marIn, ramIn, ramOut, irIn, irOut, aIn, aOut, bIn, bOut,
    aluOut, aluSubOut, outIn, haltSignal]

/-- OUT_IN is the only signal that writes LOG, and it appends the bus value (10_state.md R21). -/
theorem applySignal_log (σ : Signal) (s : State) :
    (applySignal σ s).log = s.log ++ (if σ = .outIn then [s.bus.toNat] else []) := by
  cases σ <;> simp [applySignal, pcOut, pcIn, pcInc, marIn, ramIn, ramOut, irIn, irOut, aIn, aOut, bIn, bOut,
    aluOut, aluSubOut, outIn, haltSignal, State.busIn]

/-- OUT_IN is the only signal that writes OUT (10_state.md R17). -/
theorem applySignal_out (σ : Signal) (s : State) :
    (applySignal σ s).out = if σ = .outIn then s.bus else s.out := by
  cases σ <;> simp [applySignal, pcOut, pcIn, pcInc, marIn, ramIn, ramOut, irIn, irOut, aIn, aOut, bIn, bOut,
    aluOut, aluSubOut, outIn, haltSignal, State.busIn]

/-- RAM_IN is the only signal that writes memory, and it writes the selected cell (20_memory.md R30). -/
theorem applySignal_mem (σ : Signal) (s : State) :
    (applySignal σ s).mem = if σ = .ramIn then s.mem.write s.mar s.bus else s.mem := by
  cases σ <;> simp [applySignal, pcOut, pcIn, pcInc, marIn, ramIn, ramOut, irIn, irOut, aIn, aOut, bIn, bOut,
    aluOut, aluSubOut, outIn, haltSignal, State.busIn]

/-- IR_IN is the only signal that writes IR (10_state.md R16). -/
theorem applySignal_ir (σ : Signal) (s : State) :
    (applySignal σ s).ir = if σ = .irIn then s.bus else s.ir := by
  cases σ <;> simp [applySignal, pcOut, pcIn, pcInc, marIn, ramIn, ramOut, irIn, irOut, aIn, aOut, bIn, bOut,
    aluOut, aluSubOut, outIn, haltSignal, State.busIn]

@[simp] theorem dispatchList_nil (s : State) : dispatchList [] s = s := rfl

@[simp] theorem dispatchList_cons (σ : Signal) (l : List Signal) (s : State) :
    dispatchList (σ :: l) s = dispatchList l (applySignal σ s) := rfl

@[simp] theorem dispatchList_stepCounter (l : List Signal) (s : State) :
    (dispatchList l s).stepCounter = s.stepCounter := by
  induction l generalizing s with
  | nil => rfl
  | cons σ l ih => simp [ih]

/-! ## Clock steps -/

/-- What one clock step is: nothing on a halted machine, else the micro-step. -/
theorem clockStep_cases (c : Config) (s : State) :
    (s.halt = true ∧ clockStep c s = s) ∨ (s.halt = false ∧ clockStep c s = microStep c s) := by
  cases h : s.halt <;> simp [clockStep, State.isRunning, h]

theorem clockStep_halted {c : Config} {s : State} (h : s.halt = true) : clockStep c s = s := by
  simp [clockStep, State.isRunning, h]

theorem clockStep_running {c : Config} {s : State} (h : s.halt = false) : clockStep c s = microStep c s := by
  simp [clockStep, State.isRunning, h]

@[simp] theorem clockSteps_zero (c : Config) (s : State) : clockSteps c 0 s = s := rfl

@[simp] theorem clockSteps_succ (c : Config) (n : Nat) (s : State) :
    clockSteps c (n + 1) s = clockSteps c n (clockStep c s) := rfl

theorem clockSteps_add (c : Config) (m n : Nat) (s : State) :
    clockSteps c (m + n) s = clockSteps c n (clockSteps c m s) := by
  induction m generalizing s with
  | zero => simp
  | succ m ih => rw [Nat.succ_add]; exact ih _

/-- A halted machine stays as it is (60_exceptions.md R106). -/
theorem clockSteps_halted {c : Config} {s : State} (h : s.halt = true) (n : Nat) : clockSteps c n s = s := by
  induction n with
  | zero => rfl
  | succ n ih => rw [clockSteps_succ, clockStep_halted h, ih]

/-! ## Steps -/

theorem stepWith_eq (c : Config) (s : State) : stepWith c s = .next (clockStep c s) := rfl

theorem step_eq (s : State) : step s = .next (clockStep reference s) := rfl

theorem runWith_eq (c : Config) (n : Nat) (s : State) : runWith c n s = .next (clockSteps c n s) := by
  induction n generalizing s with
  | zero => rfl
  | succ n ih => simp [runWith, stepWith, ih]

end Sys2Proof.Machine
end

