-- ==== Sys2Proof/Tests/Slice0.lean ====
section
/-! SUPPORT. Tests of the model, and witnesses that the statements' hypotheses are met. Expected values are the
spec's: the tables of 30_encoding.md and the examples and vectors of 95_test_vectors.md, by their names there. Each
test runs one signal list, one step, or the execute steps of one word. -/

namespace Sys2Proof.Tests

open Sys2Proof Sys2Proof.Machine Sys2Proof.Claims

/-! ## Helpers -/

/-- The next state of an outcome. -/
def after : Host.Outcome State Fault Refusal → Option State
  | .next s => some s
  | .fault _ => none
  | .refused _ => none

/-- The state after a list of signals, each run by `exec`. -/
def signals (l : List Signal) (s : State) : Option State := after (execList l s)

/-- The state after an instruction or signal. -/
def run (i : Instr) (s : State) : Option State := after (exec i s)

/-- A small machine: the reset state with a few cells. -/
def machine (cells : Memory) : State := { State.reset with mem := cells }

/-- The matrix of program P4: M_ref with three rows more. -/
def extMatrix : ControlMatrix := fun op k =>
  if op = 3 then [fetchStep0, fetchStep1, [.irOut, .marIn], [.ramOut, .bIn], [.aluSubOut, .aIn]].getD k.toNat []
  else if op = 4 then [fetchStep0, fetchStep1, [.irOut, .marIn], [.aOut, .ramIn]].getD k.toNat []
  else if op = 6 then [fetchStep0, fetchStep1, [.irOut, .pcIn]].getD k.toNat []
  else referenceMatrix op k

/-- A matrix with the same list at every entry. -/
def everywhere (l : List Signal) : ControlMatrix := fun _ _ => l

/-! ## WellFormed: what the checks refuse -/

theorem test_wf_refuses_four_steps : (Config.mk 4 referenceMatrix).wf = false := by decide
theorem test_wf_refuses_nine_steps : (Config.mk 9 referenceMatrix).wf = false := by decide
theorem test_fitsRomWord_refuses_five : fitsRomWord [.aOut, .bIn, .outIn, .pcInc, .halt] = false := by decide
theorem test_encodeRomWord_refuses_five : encodeRomWord [.aOut, .bIn, .outIn, .pcInc, .halt] = none := by decide
theorem test_orderedList_refuses_consumer_first : orderedList [.aIn, .aluOut] = false := by decide
theorem test_orderedList_refuses_consumer_alone : orderedList [.pcInc, .bIn] = false := by decide
theorem test_orderedList_refuses_two_producers : orderedList [.aOut, .bIn, .bOut] = false := by decide
theorem test_disciplined_refuses_missing_fetch : (Config.mk 5 (everywhere [])).disciplined = false := by decide
theorem test_setCellText_refuses_short_word :
    setCellText ['1', '1', '1', '0'] ['0', '0', '0', '1', '1', '1', '0'] (machine []) = none := by decide
theorem test_setCellText_refuses_other_character :
    setCellText ['1', '1', 'x', '0'] ['0', '0', '0', '1', '1', '1', '0', '0'] (machine []) = none := by decide
theorem test_memory_wf_refuses_unsorted : Memory.wf [(14, 0x1C), (0, 0x1E)] = false := by decide
theorem test_memory_wf_refuses_zero_entry : Memory.wf [(3, 0x00)] = false := by decide
theorem test_memory_wf_refuses_cell_sixteen : Memory.wf [(16, 0x01)] = false := by decide

/-! ## Decoding, from the tables of 30_encoding.md -/

/-- R44, with the operands of program P1 and the ignored nibbles of the decode vectors. -/
theorem test_decode_demonstration_words :
    decode (.cell 0b00011110) = .ok (.lda 14) ∧ decode (.cell 0b00101111) = .ok (.add 15) ∧
    decode (.cell 0b11100000) = .ok (.out 0) ∧ decode (.cell 0b11101111) = .ok (.out 15) ∧
    decode (.cell 0b11110000) = .ok (.hlt 0) ∧ decode (.cell 0b11110111) = .ok (.hlt 7) ∧
    decode (.cell 0b00011100) = .ok (.lda 12) := by decide

/-- R45, one word for each unmapped opcode. -/
theorem test_decode_unmapped_words :
    decode (.cell 0b00001110) = .ok (.unmapped0 14) ∧ decode (.cell 0b00110001) = .ok (.unmapped3 1) ∧
    decode (.cell 0b01000010) = .ok (.unmapped4 2) ∧ decode (.cell 0b01011010) = .ok (.unmapped5 10) ∧
    decode (.cell 0b01100100) = .ok (.unmapped6 4) ∧ decode (.cell 0b01111000) = .ok (.unmapped7 8) ∧
    decode (.cell 0b10001111) = .ok (.unmapped8 15) ∧ decode (.cell 0b10010110) = .ok (.unmapped9 6) ∧
    decode (.cell 0b10101011) = .ok (.unmapped10 11) ∧ decode (.cell 0b10111101) = .ok (.unmapped11 13) ∧
    decode (.cell 0b11000011) = .ok (.unmapped12 3) ∧ decode (.cell 0b11010111) = .ok (.unmapped13 7) := by decide

/-- R47 and R49, the sixteen slots. -/
theorem test_decode_slots :
    [0b10000, 0b10001, 0b10010, 0b10011, 0b10100, 0b10101, 0b10110, 0b10111,
     0b11000, 0b11001, 0b11010, 0b11011, 0b11100, 0b11101, 0b11110, 0b11111].map (fun w => decode (.slot w)) =
    [.ok .pcOut, .ok .pcIn, .ok .pcInc, .ok .marIn, .ok .ramIn, .ok .ramOut, .ok .irIn, .ok .irOut,
     .ok .aIn, .ok .aOut, .ok .bIn, .ok .bOut, .ok .aluOut, .ok .aluSubOut, .ok .outIn, .ok .halt] := by decide

theorem test_decode_refuses_empty_slot : decode (.slot 0b01100) = .error .emptySlot := by decide
theorem test_decode_refuses_no_byte : decodeBytes [] = .error .noCell := by decide

/-- R49, the serialisation table: a list of M_ref with three signals, the longest, and three lists of P4. -/
theorem test_rom_words :
    encodeRomWord [] = some 0x00000 ∧ encodeRomWord [.halt] = some 0x0001F ∧
    encodeRomWord [.pcOut, .marIn] = some 0x00270 ∧ encodeRomWord [.ramOut, .irIn, .pcInc] = some 0x04AD5 ∧
    encodeRomWord [.aluSubOut, .aIn] = some 0x0031D ∧ encodeRomWord [.aOut, .ramIn] = some 0x00299 ∧
    encodeRomWord [.irOut, .pcIn] = some 0x00237 := by decide

/-- R49: a slot that is not valid is skipped, and the slots after it are still dispatched. -/
theorem test_rom_word_skips_invalid_slot : decodeRomWord 0b00000_11000_00000_11100 = [.aluOut, .aIn] := by decide

/-- R48: LDA step 2, ADD step 4, OUT step 2, HLT step 2, and fetch step 1 of opcode 9. -/
theorem test_rom_addresses :
    romAddress 1 2 = 10 ∧ romAddress 2 4 = 20 ∧ romAddress 14 2 = 114 ∧ romAddress 15 2 = 122 ∧
    romAddress 9 1 = 73 := by decide

theorem test_decodeTableWord :
    decodeTableWord 8 0x2F = some (.add 15) ∧ decodeTableWord 8 0x5A = some (.unmapped5 10) ∧
    decodeTableWord 5 0b11100 = some .aluOut ∧ decodeTableWord 5 0b01100 = none := by decide

/-! ## Bit vectors: E1, E2 and V-FIT -/

theorem test_text_and_integer :
    toText (0x2A : Byte) = ['0', '0', '1', '0', '1', '0', '1', '0'] ∧ toInt (0x2A : Byte) = 42 ∧
    fromInt 8 128 = 0b10000000 ∧ fromText 4 ['1', '1', '1', '0'] = some 0xE := by decide

theorem test_fit :
    fit 4 (0xB7 : Byte) = 0x7 ∧ fit 4 (0x10 : Byte) = 0x0 ∧ fit 8 (0xE : Nibble) = 0x0E ∧
    fit 8 (0xE : Nibble) true = 0xFE ∧ fit 8 (0x2A : Byte) = 0x2A := by decide

/-! ## The control signals: V-PC, V-RAM, V-ALU, V-SEQ, V-BUS -/

theorem test_pcInc_wraps : run .pcInc { machine [] with pc := 0xF } = some (machine []) := by decide
theorem test_pcInc_carries :
    ([0x3, 0x7, 0xA, 0x0].map fun p => (run .pcInc { machine [] with pc := p }).map (·.pc)) =
      [some 0x4, some 0x8, some 0xB, some 0x1] := by decide
theorem test_pcIn_takes_low_bits :
    run .pcIn { machine [] with bus := 0xB7, pc := 2 } = some { machine [] with bus := 0xB7, pc := 7 } := by decide
theorem test_pcIn_then_pcInc :
    (signals [.pcIn, .pcInc] { machine [] with bus := 0x09, pc := 2 }).map (·.pc) = some 0xA := by decide
theorem test_pcOut_zero_extends :
    run .pcOut { machine [] with bus := 0xFF, pc := 3 } = some { machine [] with bus := 0x03, pc := 3 } := by decide
theorem test_pcOut_after_pcInc :
    (signals [.pcInc, .pcOut] { machine [] with pc := 5 }).map (·.bus) = some 0x06 := by decide

theorem test_marIn_takes_low_bits :
    run .marIn { machine [] with bus := 0xFE } = some { machine [] with bus := 0xFE, mar := 0xE } := by decide
theorem test_marIn_after_ramOut :
    (signals [.ramOut, .marIn] { machine [(5, 0x77)] with bus := 0x05, mar := 2 }).map (fun s => (s.bus, s.mar)) =
      some (0x00, 0x0) := by decide
theorem test_ramIn_writes_one_cell :
    run .ramIn { machine [(0, 0x1E), (14, 0x1C)] with bus := 0x42, mar := 0xE } =
      some { machine [(0, 0x1E), (14, 0x42)] with bus := 0x42, mar := 0xE } := by decide
theorem test_ramIn_of_zero_is_canonical :
    run .ramIn { machine [(0, 0x1E), (14, 0x1C)] with mar := 0xE } =
      some { machine [(0, 0x1E)] with mar := 0xE } := by decide
theorem test_ramOut_reads :
    run .ramOut { machine [(14, 0x1C)] with mar := 0xE } =
      some { machine [(14, 0x1C)] with mar := 0xE, bus := 0x1C } := by decide
theorem test_ram_vector_one :
    (signals [.marIn, .aOut, .ramIn, .ramOut, .bIn] { machine [(5, 0x77)] with bus := 0x05, a := 0xAB }) =
      some { machine [(5, 0xAB)] with bus := 0xAB, a := 0xAB, b := 0xAB, mar := 5 } := by decide
theorem test_setCell_leaves_bus_and_mar :
    setCell 3 0x99 { machine [(3, 0x10)] with mar := 3, bus := 0x77 } =
      { machine [(3, 0x99)] with mar := 3, bus := 0x77 } := by decide

theorem test_irIn_latches :
    run .irIn { machine [] with bus := 0x1E } = some { machine [] with bus := 0x1E, ir := 0x1E } := by decide
theorem test_irOut_drops_opcode :
    run .irOut { machine [] with ir := 0x2F, bus := 0xAA } =
      some { machine [] with ir := 0x2F, bus := 0x0F } := by decide
theorem test_aIn_latches :
    run .aIn { machine [] with bus := 0x2F } = some { machine [] with bus := 0x2F, a := 0x2F } := by decide
theorem test_aOut_drives :
    run .aOut { machine [] with a := 0x12 } = some { machine [] with a := 0x12, bus := 0x12 } := by decide
theorem test_bIn_latches :
    run .bIn { machine [] with bus := 0x2F } = some { machine [] with bus := 0x2F, b := 0x2F } := by decide
theorem test_bOut_drives :
    run .bOut { machine [] with b := 0x34 } = some { machine [] with b := 0x34, bus := 0x34 } := by decide
theorem test_aluOut_wraps :
    run .aluOut { machine [] with a := 0xC8, b := 0x64 } =
      some { machine [] with a := 0xC8, b := 0x64, bus := 0x2C } := by decide
theorem test_aluOut_is_live :
    (signals [.aluOut, .aIn, .aluOut, .aIn] { machine [] with a := 0x01, b := 0x01 }).map (fun s => (s.a, s.bus)) =
      some (0x03, 0x03) := by decide
theorem test_aluSubOut_borrows :
    run .aluSubOut { machine [] with a := 0x05, b := 0x07 } =
      some { machine [] with a := 0x05, b := 0x07, bus := 0xFE } := by decide
theorem test_aluSubOut_leaves_no_mode :
    (signals [.aluSubOut, .aluOut] { machine [] with a := 0x10, b := 0x01 }).map (·.bus) = some 0x11 := by decide
theorem test_alu_carries :
    adderChain false 0x1C 0x0E = ([false, true, false, true, false, true, false, false], false) ∧
    adderChain true 0x05 0x07 = ([false, true, true, true, true, true, true, true], false) ∧
    (adderChain true 0x2A 0x2A).2 = true ∧ (adderChain false 0xFF 0x01).2 = true := by decide
theorem test_outIn_emits_again :
    run .outIn { machine [] with bus := 0x2A, log := [42] } =
      some { machine [] with bus := 0x2A, out := 0x2A, log := [42, 42] } := by decide
theorem test_halt_sets_flag : run .halt (machine []) = some { machine [] with halt := true } := by decide
theorem test_halt_then_outIn :
    signals [.halt, .outIn] { machine [] with bus := 0x2A } =
      some { machine [] with bus := 0x2A, halt := true, out := 0x2A, log := [42] } := by decide

/-- E7. -/
theorem test_ordering_hazard :
    signals [.aluOut, .aIn] { machine [] with a := 0x11, b := 0x22, bus := 0x99 } =
      some { machine [] with a := 0x33, b := 0x22, bus := 0x33 } ∧
    signals [.aIn, .aluOut] { machine [] with a := 0x11, b := 0x22, bus := 0x99 } =
      some { machine [] with a := 0x99, b := 0x22, bus := 0xBB } := by decide

/-- V-BUS 4. -/
theorem test_two_producers :
    signals [.aOut, .outIn, .bOut, .aIn] { machine [] with a := 0x11, b := 0x22, bus := 0x99 } =
      some { machine [] with a := 0x22, b := 0x22, bus := 0x22, out := 0x11, log := [17] } := by decide

/-! ## The instruction words: V-INS, from the state the fetch leaves -/

theorem test_lda :
    run (.lda 9) { machine [(5, 0x19), (9, 0xAB)] with bus := 0x19, mar := 5, ir := 0x19, pc := 6, b := 0x77,
                                                       stepCounter := 2 } =
      some { machine [(5, 0x19), (9, 0xAB)] with bus := 0xAB, pc := 6, mar := 9, a := 0xAB, b := 0x77,
                                                 ir := 0x19 } := by decide
theorem test_lda_loads_itself :
    run (.lda 3) { machine [(3, 0x13)] with bus := 0x13, mar := 3, ir := 0x13, pc := 4, stepCounter := 2 } =
      some { machine [(3, 0x13)] with bus := 0x13, mar := 3, ir := 0x13, pc := 4, a := 0x13 } := by decide
theorem test_add_wraps :
    run (.add 10) { machine [(6, 0x2A), (10, 0x66)] with bus := 0x2A, mar := 6, ir := 0x2A, pc := 7, a := 0xAB,
                                                         b := 0x77, stepCounter := 2 } =
      some { machine [(6, 0x2A), (10, 0x66)] with bus := 0x11, pc := 7, mar := 0xA, a := 0x11, b := 0x66,
                                                  ir := 0x2A } := by decide
theorem test_add_leaves_no_carry :
    run (.add 0) { machine [(0, 0x01), (4, 0x20)] with bus := 0x20, mar := 4, ir := 0x20, pc := 5, a := 0xFF,
                                                       stepCounter := 2 } =
      some { machine [(0, 0x01), (4, 0x20)] with bus := 0x00, pc := 5, mar := 0, a := 0x00, b := 0x01,
                                                 ir := 0x20 } := by decide
theorem test_out_ignores_low_bits :
    run (.out 5) { machine [(7, 0xE5)] with bus := 0xE5, mar := 7, ir := 0xE5, pc := 8, a := 0x11,
                                            stepCounter := 2 } =
      some { machine [(7, 0xE5)] with bus := 0x11, pc := 8, mar := 7, a := 0x11, out := 0x11, ir := 0xE5,
                                      log := [17] } := by decide
theorem test_out_emits_zero :
    (run (.out 0) { machine [(0, 0xE0)] with bus := 0xE0, ir := 0xE0, pc := 1, stepCounter := 2 }).map (·.log) =
      some [0] := by decide
theorem test_hlt :
    run (.hlt 15) { machine [(8, 0xFF)] with bus := 0xFF, mar := 8, ir := 0xFF, pc := 9, stepCounter := 2 } =
      some { machine [(8, 0xFF)] with bus := 0xFF, mar := 8, ir := 0xFF, pc := 9, stepCounter := 3,
                                      halt := true } := by decide
theorem test_unmapped10 :
    run (.unmapped10 11) { machine [(9, 0xAB)] with bus := 0xAB, mar := 9, ir := 0xAB, pc := 0xA, a := 0x11,
                                                    b := 0x66, stepCounter := 2 } =
      some { machine [(9, 0xAB)] with bus := 0xAB, mar := 9, ir := 0xAB, pc := 0xA, a := 0x11, b := 0x66 } := by
  decide
theorem test_unmapped_words_do_nothing :
    ([(.unmapped0 1, 0x01), (.unmapped3 1, 0x31), (.unmapped4 1, 0x41), (.unmapped5 1, 0x51),
      (.unmapped6 1, 0x61), (.unmapped7 1, 0x71), (.unmapped8 1, 0x81), (.unmapped9 1, 0x91),
      (.unmapped11 1, 0xB1), (.unmapped12 1, 0xC1), (.unmapped13 1, 0xD1)] : List (Instr × Byte)).all (fun e =>
      run e.1 { machine [(1, 0x07)] with a := 0x5A, ir := e.2, bus := e.2, stepCounter := 2 } =
        some { machine [(1, 0x07)] with a := 0x5A, ir := e.2, bus := e.2 }) = true := by decide

/-! ## The sequencer: V-SEQ -/

/-- V-INS 8, the fetch of cell 15: PC wraps. -/
theorem test_fetch_wraps :
    after (step { machine [(15, 0x2F)] with pc := 0xF, mar := 0xF, bus := 0x0F, stepCounter := 1 }) =
      some { machine [(15, 0x2F)] with pc := 0, mar := 0xF, bus := 0x2F, ir := 0x2F, stepCounter := 2 } := by decide
theorem test_fetch_step_zero :
    after (step { machine [(5, 0x19)] with pc := 5, bus := 0x33, mar := 2, ir := 0xE0 }) =
      some { machine [(5, 0x19)] with pc := 5, bus := 0x05, mar := 5, ir := 0xE0, stepCounter := 1 } := by decide

/-- V-SEQ 12: the list is looked up once, on the row of the previous word. -/
theorem test_row_is_looked_up_once :
    after (step { machine [(0, 0xF0)] with stepCounter := 1 }) =
      some { machine [(0, 0xF0)] with bus := 0xF0, ir := 0xF0, pc := 1, stepCounter := 2 } := by decide

/-- V-SEQ 9 and 10. -/
theorem test_stepCounter_wraps :
    (after (stepWith (referenceWith 5) { machine [] with stepCounter := 4 })).map (·.stepCounter) = some 0 ∧
    (after (stepWith (referenceWith 8) { machine [] with stepCounter := 4 })).map (·.stepCounter) = some 5 ∧
    (after (stepWith (referenceWith 8) { machine [] with stepCounter := 7 })).map (·.stepCounter) = some 0 := by
  decide

/-- V-SEQ 11. -/
theorem test_halted_machine_stands :
    after (step { machine [] with halt := true, stepCounter := 3, ir := 0xE0, pc := 4 }) =
      some { machine [] with halt := true, stepCounter := 3, ir := 0xE0, pc := 4 } := by decide

/-- P4, micro-steps 15, 19 and 23. -/
theorem test_other_matrix_subtracts :
    after (stepWith ⟨5, extMatrix⟩ { machine [(14, 3), (15, 1)] with ir := 0x3F, stepCounter := 4, a := 3, b := 1,
                                                                     bus := 1, mar := 0xF, pc := 3 }) =
      some { machine [(14, 3), (15, 1)] with ir := 0x3F, a := 2, b := 1, bus := 2, mar := 0xF, pc := 3 } := by
  decide
theorem test_other_matrix_stores :
    (after (stepWith ⟨5, extMatrix⟩ { machine [(14, 3), (15, 1)] with ir := 0x4E, stepCounter := 3, a := 2,
                                                                      bus := 0x0E, mar := 0xE })).map (·.mem) =
      some [(14, 2), (15, 1)] := by decide
theorem test_other_matrix_jumps :
    (after (stepWith ⟨5, extMatrix⟩ { machine [] with ir := 0x67, stepCounter := 2, pc := 5,
                                                      bus := 0x67 })).map (fun s => (s.pc, s.bus)) =
      some (7, 0x07) := by decide

theorem test_withFetchWord :
    State.reset.withFetchWord 8 0x2E =
      { machine [(0, 0x2E)] with bus := 0x2E, ir := 0x2E, pc := 1, stepCounter := 2 } := by decide

/-! ## The pins: 10_state.md R25 to R27, V-RST 5 -/

theorem test_reset_pin :
    edge reference ⟨true, true, false, 0, 0⟩ { machine [(0, 0x1E)] with halt := true, a := 0x2A, log := [42] } =
      State.reset := by decide
theorem test_output_pulse :
    edgeOutputs reference ⟨false, true, false, 0, 0⟩ { machine [] with ir := 0xE0, stepCounter := 2, a := 0x2A } =
      ⟨0x2A, true, false⟩ := by decide
theorem test_paused_core_holds :
    edge reference ⟨false, false, false, 0, 0⟩ { machine [] with ir := 0xE0, stepCounter := 2 } =
      { machine [] with ir := 0xE0, stepCounter := 2 } := by decide
theorem test_late_loader_refused :
    (match Session.edge reference ⟨false, false, true, 3, 0x99⟩ ⟨machine [], true⟩ with
      | .refused r => some r
      | .next _ => none
      | .fault _ => none) = some .loaderAfterStart := by decide

/-! ## Witnesses: the hypotheses of each statement are met

One theorem for each statement that has hypotheses, named after it; its parts are the statement's clauses, at the ends
of their ranges. -/

theorem witness_DecodeEncodeRoundTrip :
    (Instr.lda 15).wf = true ∧ decode (.cell 0x1F) = .ok (.lda 15) ∧ decode (.slot 0b11111) = .ok .halt := by decide

theorem witness_RomWordHoldsItsList :
    [Signal.aOut, .bIn, .outIn, .halt].length ≤ 4 ∧ 4 < [Signal.aOut, .bIn, .outIn, .pcInc, .halt].length := by
  decide

theorem witness_ReferenceMatrixIsDisciplined : (5 ≤ 5 ∧ 5 ≤ 8) ∧ (5 ≤ 8 ∧ 8 ≤ 8) := by decide

/-- Bit 7 of an eight-bit number, and character 7 of its text. -/
theorem witness_IntegerValueOfABitVector : 7 < 8 ∧ (fromInt 8 128).getLsbD 7 = true := by decide
theorem witness_TextFormOfABitVector : 7 < 8 ∧ (toText (0x01 : Byte))[7]? = some '1' := by decide

/-- The last bit copied and the first bit filled, from four bits to eight. -/
theorem witness_FitCopiesLowBitsAndFills :
    (3 < 8 ∧ 3 < 4 ∧ (fit 8 (0x8 : Nibble) true).getLsbD 3 = true) ∧
    (4 < 8 ∧ ¬ 4 < 4 ∧ (fit 8 (0x8 : Nibble) true).getLsbD 4 = true) := by decide

/-- The carries of PC_INC at F, where every one is true, and at 0, where they stop at once (V-PC). -/
theorem witness_PcIncIsBinarySuccessor :
    (∀ c ∈ [([true, true, true, true, true], (0xF : Nibble)), ([true, false, false, false, false], 0x0)],
      c.1.getD 0 false = true ∧
      ∀ k ∈ List.range 4, c.1.getD (k + 1) false = (c.2.getLsbD k && c.1.getD k false)) := by decide

/-- The cells on both sides of the one selected. -/
theorem witness_MarInSelectsTheCell :
    (0xD : Nibble) ≠ (0xFE : Byte).extractLsb' 0 4 ∧ (0xF : Nibble) ≠ (0xFE : Byte).extractLsb' 0 4 := by decide

theorem witness_RamInWritesTheSelectedCell : (0xF : Nibble) ≠ (machine []).mar := by decide

theorem witness_RamOutDrivesTheSelectedCell :
    ({ machine [] with bus := 0xFE } : State).bus.extractLsb' 0 4 = (0xE : Nibble) := by decide

theorem witness_SetCellWritesOneCell : (0xF : Nibble) ≠ 0xE := by decide

/-- The carries of the two tables of V-ALU. -/
theorem witness_ComputeIsTheFullAdderChain :
    (∀ c ∈ [([false, false, false, true, true, true, false, false, false], false, (0x1C : Byte), (0x0E : Byte)),
            ([true, true, false, false, false, false, false, false, false], true, 0x05, 0x07)],
      c.1.getD 0 false = c.2.1 ∧
      ∀ k ∈ List.range 8, c.1.getD (k + 1) false =
        ((c.1.getD k false && c.2.2.1.getLsbD k) || (c.1.getD k false && (c.2.1 ^^ c.2.2.2.getLsbD k)) ||
          (c.2.2.1.getLsbD k && (c.2.1 ^^ c.2.2.2.getLsbD k)))) := by decide

/-- HLT's step 2. -/
theorem witness_HaltSetsTheFlagAndEndsTheRun :
    ({ machine [] with ir := 0xF0, stepCounter := 2 } : State).halt = false ∧
    Signal.halt ∈ reference.matrix ((0xF0 : Byte).extractLsb' 4 4) 2 := by decide

/-- The third clause at an empty list, LDA's step 4. -/
theorem witness_OnlyProducersWriteTheBus :
    Signal.aluSubOut.cls = .producer ∧ Signal.halt.cls ≠ .producer ∧ Signal.outIn.cls ≠ .producer ∧
    noneOf .producer (currentList reference { machine [] with ir := 0x1E, stepCounter := 4 }) = true := by decide

theorem witness_ProducerBeforeConsumerDelivers :
    Signal.ramOut.cls = .producer ∧ Signal.irIn.cls = .consumer := by decide

theorem witness_LaterProducerReplacesEarlier :
    Signal.aOut.cls = .producer ∧ Signal.bOut.cls = .producer := by decide

theorem witness_StepRunsTheSelectedSignals : (machine []).halt = false := by decide

/-- The last step of the longest cycle; and a matrix without HALT. -/
theorem witness_StepCounterAdvancesModuloS :
    (referenceWith 8).wf = true ∧ ({ machine [] with stepCounter := 7 } : State).stepCounter.toNat < 8 ∧
    (machine []).halt = false ∧ (Config.mk 8 (everywhere [.pcInc])).wf = true ∧
    (∀ op k, Signal.halt ∉ (Config.mk 8 (everywhere [.pcInc])).matrix op k) := by decide

theorem witness_HaltedMachineStands :
    ({ machine [] with halt := true } : State).halt = true ∧
    (Pins.mk false true false 0 0).rst = false ∧ (Pins.mk false true false 0 0).run = true := by decide

/-- A signal, a step that sets the flag and one that does not, and an edge of a halted machine with and without
`rst`. -/
theorem witness_HaltFlagSetByHaltClearedByReset :
    run .halt (machine []) = some { machine [] with halt := true } ∧
    (after (step { machine [] with ir := 0xF0, stepCounter := 2 })).map (·.halt) = some true ∧
    (after (step (machine []))).map (·.halt) = some false ∧
    (edge reference ⟨true, true, false, 0, 0⟩ { machine [] with halt := true }).halt = false ∧
    (edge reference ⟨false, true, false, 0, 0⟩ { machine [] with halt := true }).halt = true := by decide

/-- A list with two OUT_IN (V-BUS): two events. -/
theorem witness_EachOutInAppendsOneEvent :
    (machine []).halt = false ∧ ((everywhere [.outIn, .outIn]) 0 0).count .outIn = 2 := by decide

theorem witness_OutputIsNeverReadBack :
    sameButOutput (machine [(0, 0xE0)]) { machine [(0, 0xE0)] with out := 0x2A, log := [42] } := by
  unfold sameButOutput
  decide

/-- A matrix without fetch lists (70_reset_and_hazards.md R111). -/
theorem witness_RowWithoutFetchNeverLeaves :
    (machine []).halt = false ∧ (∀ k, Signal.irIn ∉ everywhere [.pcInc] ((machine []).ir.extractLsb' 4 4) k ∧
      Signal.halt ∉ everywhere [.pcInc] ((machine []).ir.extractLsb' 4 4) k) := by decide

theorem witness_FetchCycleLoadsTheWord :
    (5 ≤ 5 ∧ 5 ≤ 8) ∧ (5 ≤ 8 ∧ 8 ≤ 8) ∧ (machine []).stepCounter = 0 ∧ (machine []).halt = false := by decide

/-- A word of the last cell. -/
theorem witness_CycleRunsTheDecodedInstruction :
    ({ machine [(15, 0x2F)] with pc := 0xF } : State).atBoundary ∧
    decodeBytes [({ machine [(15, 0x2F)] with pc := 0xF } : State).mem.read 0xF] = .ok (.add 15, []) := by
  unfold State.atBoundary
  decide

/-- The first and the last word. -/
theorem witness_FetchWordIsRunNext :
    decodeTableWord 8 0x00 = some (.unmapped0 0) ∧ decodeTableWord 8 0xFF = some (.hlt 15) := by decide

theorem witness_LdaLoadsTheCell : (machine [(15, 0xAB)]).halt = false := by decide
theorem witness_AddAddsTheCell : ({ machine [(0, 0x01)] with a := 0xFF } : State).halt = false := by decide
theorem witness_OutEmitsTheAccumulator : ({ machine [] with a := 0xFF } : State).halt = false := by decide
theorem witness_HltSetsHaltAtStepThree : (machine [(0, 0xF0)]).halt = false := by decide
theorem witness_UnmappedOpcodesDoNothing : (machine [(0, 0xD7)]).halt = false := by decide

theorem witness_HaltedMachineExecutesNothing :
    ({ machine [] with halt := true, stepCounter := 3 } : State).halt = true ∧
    decode (.cell 0x1E) = .ok (.lda 14) := by decide

/-- Program P1 at its launch; and at its HLT, where the cycle is short. -/
theorem witness_MicroStepsRefineTheMacroStep :
    (5 ≤ 5 ∧ 5 ≤ 8) ∧ (5 ≤ 8 ∧ 8 ≤ 8) ∧ (machine [(0, 0x1E), (3, 0xF0)]).atBoundary ∧
    ({ machine [(0, 0x1E), (3, 0xF0)] with pc := 3 } : State).atBoundary := by
  unfold State.atBoundary
  decide

theorem witness_HltEndsTheRunAfterThreeSteps :
    (5 ≤ 5 ∧ 5 ≤ 8) ∧ (5 ≤ 8 ∧ 8 ≤ 8) ∧ ({ machine [(15, 0xF7)] with pc := 0xF } : State).atBoundary ∧
    opcodeOf (({ machine [(15, 0xF7)] with pc := 0xF } : State).mem.read 0xF) = 15 := by
  unfold State.atBoundary
  decide

/-- Each clause's premise at a step that meets it: A in LDA's step 3 and ADD's step 4, B in ADD's step 3, OUT and LOG
in OUT's step 2, halt in HLT's step 2, MAR and BUS in fetch step 0 and in LDA's step 2, BUS and IR in fetch step 1, the
last step of a cycle, and a halted machine. -/
theorem witness_ReferenceStepWritesOnlyItsRegisters :
    (after (step { machine [(14, 0x1C)] with ir := 0x1E, stepCounter := 3, mar := 14 })).map (·.a) = some 0x1C ∧
    (after (step { machine [] with ir := 0x2E, stepCounter := 4, b := 0x1C })).map (·.a) = some 0x1C ∧
    (after (step { machine [(14, 0x1C)] with ir := 0x2E, stepCounter := 3, mar := 14 })).map (·.b) = some 0x1C ∧
    (after (step { machine [] with ir := 0xE0, stepCounter := 2, a := 0x2A })).map (fun t => (t.out, t.log)) =
      some (0x2A, [42]) ∧
    (after (step { machine [] with ir := 0xF0, stepCounter := 2 })).map (·.halt) = some true ∧
    (after (step { machine [] with pc := 5 })).map (fun t => (t.mar, t.bus)) = some (5, 0x05) ∧
    (after (step { machine [] with ir := 0x1E, stepCounter := 2 })).map (fun t => (t.mar, t.bus)) = some (0xE, 0x0E) ∧
    (after (step { machine [(0, 0x1E)] with stepCounter := 1 })).map (fun t => (t.bus, t.ir)) = some (0x1E, 0x1E) ∧
    (after (step { machine [] with stepCounter := 4 })).map (·.stepCounter) = some 0 ∧
    (after (step { machine [] with halt := true, stepCounter := 3 })).map (·.stepCounter) = some 3 := by decide

theorem inv_machine : Inv 5 (machine [(0, 0x1E), (15, 0x0E)]) := ⟨by decide, by decide, by decide, by decide⟩

theorem witness_AnyMatrixKeepsTheStateGood :
    (referenceWith 5).wf = true ∧ Inv (referenceWith 5).steps (machine [(0, 0x1E), (15, 0x0E)]) ∧
    stepWith (referenceWith 5) (machine [(0, 0x1E), (15, 0x0E)]) =
      .next { machine [(0, 0x1E), (15, 0x0E)] with stepCounter := 1 } :=
  ⟨by decide, inv_machine, by rfl⟩

/-- At a boundary, and after HLT's step 2, the one place where a machine is halted. -/
theorem witness_StepKeepsTheReferenceState :
    ReferenceInv (machine [(0, 0x1E), (15, 0x0E)]) ∧
    step (machine [(0, 0x1E), (15, 0x0E)]) = .next { machine [(0, 0x1E), (15, 0x0E)] with stepCounter := 1 } ∧
    ReferenceInv { machine [(0, 0xF0)] with ir := 0xF0, bus := 0xF0, pc := 1, stepCounter := 3, halt := true } :=
  ⟨⟨inv_machine, by decide, by decide, by decide⟩, by rfl,
   ⟨⟨by decide, by decide, by decide, by decide⟩, by decide, by decide, by decide⟩⟩

theorem witness_WithoutHltItNeverHalts : State.reset.atBoundary ∧ State.reset.noHlt := by
  unfold State.atBoundary State.noHlt
  decide

/-- The HLT word in the cell itself, and fifteen cells on, round the end of memory. -/
theorem witness_RunHaltsAfterNTimesSPlus3 :
    (5 ≤ 5 ∧ 5 ≤ 8) ∧ ({ machine [(0, 0xF0)] with pc := 1 } : State).atBoundary ∧
    (∀ j, j < 15 → opcodeOf ((machine [(0, 0xF0)]).mem.read (1 + BitVec.ofNat 4 j)) ≠ 15) ∧
    opcodeOf ((machine [(0, 0xF0)]).mem.read (1 + BitVec.ofNat 4 15)) = 15 ∧
    opcodeOf ((machine [(0, 0xF0)]).mem.read (0 + BitVec.ofNat 4 0)) = 15 := by
  unfold State.atBoundary
  decide

theorem witness_LaunchValuesOfFiveRegistersDoNotMatter :
    (machine [(0, 0x1E)]).atBoundary ∧
    ({ machine [(0, 0x1E)] with bus := 0x99, mar := 7, b := 0x77, ir := 0xF0, out := 0x55 } : State).atBoundary ∧
    ({ machine [(0, 0x1E)] with bus := 0x99, mar := 7, ir := 0xF0 } : State).b = (machine [(0, 0x1E)]).b ∧
    ({ machine [(0, 0x1E)] with bus := 0x99, mar := 7, ir := 0xF0 } : State).out = (machine [(0, 0x1E)]).out := by
  unfold State.atBoundary
  decide

/-- The empty memory and the full one. -/
theorem witness_CanonicalMemoriesAreEqual :
    Memory.wf [] = true ∧
    Memory.wf [(0, 1), (1, 1), (2, 1), (3, 1), (4, 1), (5, 1), (6, 1), (7, 1), (8, 1), (9, 1), (10, 1), (11, 1),
               (12, 1), (13, 1), (14, 1), (15, 0xFF)] = true := by decide

/-- At a boundary, and inside the cycle of an ADD word. -/
theorem witness_StepKeepsAMachineWithoutHltRunning :
    (ReferenceInv (machine [(0, 0x1E), (15, 0x0E)]) ∧ (machine [(0, 0x1E), (15, 0x0E)]).noHlt ∧
      (machine [(0, 0x1E), (15, 0x0E)]).halt = false) ∧
    (ReferenceInv { machine [(15, 0x2F)] with ir := 0x2F, bus := 0x2F, mar := 0xF, stepCounter := 4 } ∧
      (machine [(15, 0x2F)]).noHlt) :=
  ⟨⟨⟨inv_machine, by decide, by decide, by decide⟩, by unfold State.noHlt; decide, by decide⟩,
   ⟨⟨⟨by decide, by decide, by decide, by decide⟩, by decide, by decide, by decide⟩, by unfold State.noHlt; decide⟩⟩

/-- One setting of the pins for each clause. -/
theorem witness_ClockEdgeAtThePins :
    (Pins.mk true true true 0 0).rst = true ∧
    ((Pins.mk false true true 0 0).rst = false ∧ (Pins.mk false true true 0 0).run = true) ∧
    ((Pins.mk false false true 15 0xFF).rst = false ∧ (Pins.mk false false true 15 0xFF).run = false ∧
      (Pins.mk false false true 15 0xFF).ldEn = true) ∧
    ((Pins.mk false false false 0 0).run = false ∧ (Pins.mk false false false 0 0).ldEn = false) := by decide

/-- The loader port after the start, before it, and under `rst`. -/
theorem witness_LoaderPortRefusedDuringARun :
    ((Pins.mk false false true 3 0x99).rst = false ∧ (Pins.mk false false true 3 0x99).ldEn = true ∧
      (Session.mk (machine []) true).started = true) ∧
    ¬ ((Pins.mk false false true 3 0x99).rst = false ∧ (Pins.mk false false true 3 0x99).ldEn = true ∧
      (Session.mk (machine []) false).started = true) ∧
    ¬ ((Pins.mk true false true 3 0x99).rst = false ∧ (Pins.mk true false true 3 0x99).ldEn = true ∧
      (Session.mk (machine []) true).started = true) := by decide

end Sys2Proof.Tests
end

section
/-! PROOFS. The conversions of a bit vector at every width: the integer value (00_scope.md R5) and the textual form
(R6). -/

namespace Sys2Proof.Machine

/-! ## The integer value -/

/-- The weighted sum of R5, for the bits a function gives: taking the first bit off halves every other weight. -/
theorem bitsToNat_map_range (n : Nat) (f : Nat → Bool) :
    bitsToNat ((List.range n).map f) = ((List.range n).map fun k => (f k).toNat * 2 ^ k).sum := by
  induction n generalizing f with
  | zero => rfl
  | succ n ih =>
    have hweight (k : Nat) : (f (k + 1)).toNat * 2 ^ (k + 1) = 2 * ((f (k + 1)).toNat * 2 ^ k) := by ring
    have hrest := ih fun k => f (k + 1)
    simp only [List.range_succ_eq_map, List.map_cons, List.map_map, Function.comp_def, Nat.succ_eq_add_one,
      bitsToNat_cons, List.sum_cons, hrest, hweight, List.sum_map_mul_left, Nat.pow_zero, Nat.mul_one]

/-- The bits `fromInt` takes from a number are those of the number modulo `2 ^ n`. -/
@[simp] theorem fromInt_eq_ofNat (n i : Nat) : fromInt n i = BitVec.ofNat n i := by
  apply BitVec.eq_of_getLsbD_eq
  intro k hk
  rw [fromInt, getLsbD_fromBits, BitVec.getLsbD_ofNat, Nat.testBit_eq_decide_div_mod_eq]
  simp [hk]

/-! ## The textual form -/

@[simp] theorem toText_length {n : Nat} (v : BitVec n) : (toText v).length = n := by
  simp [toText, bits_length]

/-- Character `j` from the left is bit `n - 1 - j`. -/
theorem toText_getElem? {n : Nat} (v : BitVec n) {j : Nat} (hj : j < n) :
    (toText v)[j]? = some (if v.getLsbD (n - 1 - j) then '1' else '0') := by
  have hbit : (bits v).reverse[j]? = some (v.getLsbD (n - 1 - j)) := by
    rw [List.getElem?_reverse (by simpa [bits_length] using hj), bits_length, bits,
      List.getElem?_map, List.getElem?_range (by omega)]
    rfl
  rw [toText, List.getElem?_map, hbit, Option.map_some]

/-- The characters written for a sequence of bits spell that sequence. -/
theorem textBits_map_char (bs : List Bool) :
    textBits (bs.map fun b => if b then '1' else '0') = some bs := by
  induction bs with
  | nil => rfl
  | cons b rest ih => cases b <;> simp [textBits, ih]

@[simp] theorem fromText_toText {n : Nat} (v : BitVec n) : fromText n (toText v) = some v := by
  have hbits : textBits (toText v) = some (bits v).reverse := textBits_map_char _
  simp [fromText, hbits, bits_length]

/-! ## The statements -/

/-- Settles O7: the weighted sum by recursion on the bits, the rest because `fromInt` is the vector of the number. -/
theorem integerValueOfABitVector : Obligations.IntegerValueOfABitVector := by
  intro n v
  refine ⟨bitsToNat_map_range n v.getLsbD, fun i k hk => ?_, by simp⟩
  rw [fromInt_eq_ofNat, BitVec.getLsbD_ofNat, decide_eq_true hk, Bool.true_and, Nat.toNat_testBit]

/-- Settles O8: the text is the reversed bits, character by character, and each character is read as its bit. -/
theorem textFormOfABitVector : Obligations.TextFormOfABitVector :=
  fun _ v => ⟨toText_length v, fun _ hj => toText_getElem? v hj, fromText_toText v⟩

end Sys2Proof.Machine
end

section
/-! PROOFS. What each control signal writes, and under any matrix the halt flag (10_state.md R19), the output events
(R21) and the ports (R25 to R27). -/

namespace Sys2Proof.Machine

/-! ## The signals

One equation for each control signal: the value it takes and the one element it writes (30_encoding.md R47). -/

@[simp] theorem pcOut_eq (s : State) : pcOut s = { s with bus := s.pc.setWidth 8 } := by
  simp [pcOut, State.drive]

@[simp] theorem pcIn_eq (s : State) : pcIn s = { s with pc := s.bus.setWidth 4 } := by simp [pcIn, State.busIn]

@[simp] theorem pcInc_eq (s : State) : pcInc s = { s with pc := s.pc + 1 } := by simp [pcInc]

@[simp] theorem marIn_eq (s : State) : marIn s = { s with mar := s.bus.setWidth 4 } := by simp [marIn, State.busIn]

@[simp] theorem ramIn_eq (s : State) : ramIn s = { s with mem := s.mem.write s.mar s.bus } := by
  simp [ramIn, State.writeCell, State.busIn]

@[simp] theorem ramOut_eq (s : State) : ramOut s = { s with bus := s.mem.read s.mar } := by
  simp [ramOut, State.drive, State.selected]

@[simp] theorem irIn_eq (s : State) : irIn s = { s with ir := s.bus } := by simp [irIn, State.busIn]

@[simp] theorem irOut_eq (s : State) : irOut s = { s with bus := s.addrField.setWidth 8 } := by
  simp [irOut, State.drive]

@[simp] theorem aIn_eq (s : State) : aIn s = { s with a := s.bus } := by simp [aIn, State.busIn]

@[simp] theorem aOut_eq (s : State) : aOut s = { s with bus := s.a } := by simp [aOut, State.drive]

@[simp] theorem bIn_eq (s : State) : bIn s = { s with b := s.bus } := by simp [bIn, State.busIn]

@[simp] theorem bOut_eq (s : State) : bOut s = { s with bus := s.b } := by simp [bOut, State.drive]

@[simp] theorem aluOut_eq (s : State) : aluOut s = { s with bus := aluCompute false s.a s.b } := by
  simp [aluOut, State.drive]

@[simp] theorem aluSubOut_eq (s : State) : aluSubOut s = { s with bus := aluCompute true s.a s.b } := by
  simp [aluSubOut, State.drive]

@[simp] theorem outIn_eq (s : State) : outIn s = { s with out := s.bus, log := s.log ++ [s.bus.toNat] } := by
  simp [outIn, State.busIn, State.emit]

@[simp] theorem haltSignal_eq (s : State) : haltSignal s = { s with halt := true } := rfl

/-- `exec` of a control signal is the operation the signal is bound to. -/
theorem exec_toInstr (σ : Signal) (s : State) : exec σ.toInstr s = .next (applySignal σ s) := by
  cases σ <;> rfl

/-! ## The halt flag -/

/-- A list leaves the flag set exactly when it was set or HALT is in the list. -/
theorem dispatchList_halt (l : List Signal) (s : State) :
    (dispatchList l s).halt = true ↔ s.halt = true ∨ Signal.halt ∈ l := by
  induction l generalizing s with
  | nil => simp
  | cons σ l ih => simp [ih, applySignal_halt, or_assoc, eq_comm (a := Signal.halt)]

theorem clockStep_halt (c : Config) (s : State) :
    (clockStep c s).halt = true ↔ s.halt = true ∨ Signal.halt ∈ currentList c s := by
  rcases clockStep_cases c s with ⟨hhalt, heq⟩ | ⟨-, heq⟩
  · simp [heq, hhalt]
  · simp [heq, microStep, dispatchList_halt]

/-- A clock edge on a halted machine, whatever the pins, clears the flag only by reset. -/
theorem edge_halt_of_halted (c : Config) (p : Pins) {s : State} (h : s.halt = true) :
    (edge c p s).halt = false ↔ p.rst = true := by
  unfold edge
  split_ifs with hrst hrun hld
  · simp [hrst, State.reset]
  · simp [hrst, clockStep_halted h, h]
  · simp [hrst, setCell, h]
  · simp [hrst, h]

/-- Settles O31: each signal, then each list, writes the flag by HALT alone; of the four kinds of edge only reset
clears it. -/
theorem haltFlagSetByHaltClearedByReset : Obligations.HaltFlagSetByHaltClearedByReset := by
  refine ⟨rfl, fun σ s t hexec => ?_, fun c s t hstep => ?_, fun c p s => edge_halt_of_halted c p,
    fun _ _ _ => rfl⟩
  · rw [exec_toInstr] at hexec
    cases hexec
    simp [applySignal_halt]
  · rw [stepWith_eq] at hstep
    cases hstep
    exact clockStep_halt c s

/-! ## The output events -/

/-- The events a list appends: one byte for each OUT_IN in it. -/
theorem dispatchList_log (l : List Signal) (s : State) :
    ∃ events, (dispatchList l s).log = s.log ++ events ∧ events.length = l.count .outIn ∧ ∀ n ∈ events, n < 256 := by
  induction l generalizing s with
  | nil => exact ⟨[], by simp⟩
  | cons σ l ih =>
    obtain ⟨events, hlog, hlength, hbytes⟩ := ih (applySignal σ s)
    rw [dispatchList_cons, hlog, applySignal_log]
    by_cases hσ : σ = .outIn
    · refine ⟨s.bus.toNat :: events, ?_, ?_, List.forall_mem_cons.2 ⟨s.bus.isLt, hbytes⟩⟩
      · simp [hσ]
      · simp [hlength, hσ]
    · refine ⟨events, ?_, ?_, hbytes⟩
      · simp [hσ]
      · simp [hlength, hσ]

/-- Settles O32: a running machine's step is the micro-step, and its list appends the events. -/
theorem eachOutInAppendsOneEvent : Obligations.EachOutInAppendsOneEvent := by
  intro c s hrun
  obtain ⟨events, hlog, hcount⟩ := dispatchList_log (currentList c s) s
  exact ⟨microStep c s, events, by rw [stepWith_eq, clockStep_running hrun], hlog, hcount⟩

/-- The micro-step makes LOG longer exactly when its list dispatches OUT_IN. -/
theorem microStep_log_length_lt (c : Config) (s : State) :
    s.log.length < (microStep c s).log.length ↔ Signal.outIn ∈ currentList c s := by
  obtain ⟨events, hlog, hcount, -⟩ := dispatchList_log (currentList c s) s
  have hmicro : (microStep c s).log = s.log ++ events := hlog
  rw [← List.count_pos_iff, hmicro, List.length_append, hcount]
  omega

/-- `edgeEmits` is a micro-step that grew LOG (10_state.md R27). -/
theorem edgeEmits_iff (c : Config) (p : Pins) (s : State) :
    edgeEmits c p s = true ↔
      p.rst = false ∧ p.run = true ∧ s.halt = false ∧ s.log.length < (edge c p s).log.length := by
  unfold edgeEmits State.isRunning
  simp only [Bool.and_eq_true, Bool.not_eq_true', decide_eq_true_eq, and_assoc]
  refine and_congr_right fun hrst => and_congr_right fun hrun => and_congr_right fun hhalt => ?_
  have hedge : edge c p s = microStep c s := by simp [edge, hrst, hrun, clockStep_running hhalt]
  rw [hedge, microStep_log_length_lt]

/-- Settles O57: the four kinds of edge by the definition, the pulse by the growth of LOG. -/
theorem clockEdgeAtThePins : Obligations.ClockEdgeAtThePins := by
  intro c p s
  refine ⟨?reset, ?step, ?load, ?none, rfl, rfl, edgeEmits_iff c p s⟩
  case reset => intro hrst; simp [edge, hrst]
  case step => intro hrst hrun; simp [edge, hrst, hrun, stepWith_eq]
  case load => intro hrst hrun hld; simp [edge, hrst, hrun, hld]
  case none => intro hrst hrun hld; simp [edge, hrst, hrun, hld]

end Sys2Proof.Machine
end

section
/-! PROOFS. Under any matrix OUT and LOG are read by no other element (10_state.md R8, R17). -/

namespace Sys2Proof.Machine

open Sys2Proof.Claims

theorem exists_eq_of_sameButOutput {s t : State} (h : sameButOutput s t) :
    ∃ out log, t = { s with out := out, log := log } :=
  ⟨t.out, t.log, h.symm⟩

/-- Every signal acts alike on two states that differ in OUT and LOG. -/
theorem sameButOutput_applySignal (σ : Signal) {s t : State} (h : sameButOutput s t) :
    sameButOutput (applySignal σ s) (applySignal σ t) := by
  obtain ⟨out, log, rfl⟩ := exists_eq_of_sameButOutput h
  cases σ <;> rfl

theorem sameButOutput_dispatchList (l : List Signal) {s t : State} (h : sameButOutput s t) :
    sameButOutput (dispatchList l s) (dispatchList l t) := by
  induction l generalizing s t with
  | nil => exact h
  | cons σ l ih => exact ih (sameButOutput_applySignal σ h)

theorem sameButOutput_withStepCounter (k : StepIndex) {s t : State} (h : sameButOutput s t) :
    sameButOutput { s with stepCounter := k } { t with stepCounter := k } := by
  obtain ⟨out, log, rfl⟩ := exists_eq_of_sameButOutput h
  rfl

/-- Neither the selected list nor the next counter reads OUT or LOG. -/
theorem sameButOutput_microStep (c : Config) {s t : State} (h : sameButOutput s t) :
    sameButOutput (microStep c s) (microStep c t) := by
  have hdispatch := sameButOutput_withStepCounter (nextStepIndex c.steps s.stepCounter)
    (sameButOutput_dispatchList (currentList c s) h)
  obtain ⟨out, log, rfl⟩ := exists_eq_of_sameButOutput h
  exact hdispatch

theorem halt_eq_of_sameButOutput {s t : State} (h : sameButOutput s t) : s.halt = t.halt := by
  obtain ⟨out, log, rfl⟩ := exists_eq_of_sameButOutput h
  rfl

theorem sameButOutput_clockStep (c : Config) {s t : State} (h : sameButOutput s t) :
    sameButOutput (clockStep c s) (clockStep c t) := by
  have hhalt := halt_eq_of_sameButOutput h
  rcases clockStep_cases c s with ⟨hs, heq⟩ | ⟨hs, heq⟩
  · rwa [heq, clockStep_halted (hhalt ▸ hs)]
  · rw [heq, clockStep_running (hhalt ▸ hs)]
    exact sameButOutput_microStep c h

theorem sameButOutput_clockSteps (c : Config) (n : Nat) {s t : State} (h : sameButOutput s t) :
    sameButOutput (clockSteps c n s) (clockSteps c n t) := by
  induction n generalizing s t with
  | zero => exact h
  | succ n ih => exact ih (sameButOutput_clockStep c h)

/-- Settles O33: the relation is kept signal by signal, and the list and the halt check do not read OUT or LOG. -/
theorem outputIsNeverReadBack : Obligations.OutputIsNeverReadBack :=
  fun c n s t h => ⟨_, _, runWith_eq c n s, runWith_eq c n t, sameButOutput_clockSteps c n h⟩

end Sys2Proof.Machine
end

section
/-! PROOFS. The invariant of every matrix, and the states a run begins in (10_state.md R24). -/

namespace Sys2Proof.Machine

/-! ## The invariant of every matrix -/

/-- `(s + 1) mod S` as a number: three bits hold it for every `S` up to eight (44_sequencer.md R84). -/
theorem nextStepIndex_toNat {S : Nat} (hpos : 0 < S) (hle : S ≤ 8) (k : StepIndex) :
    (nextStepIndex S k).toNat = (k.toNat + 1) % S := by
  have hlt := Nat.mod_lt (k.toNat + 1) hpos
  rw [nextStepIndex, BitVec.toNat_ofNat, Nat.mod_eq_of_lt (by omega)]

theorem applySignal_inv {S : Nat} {s : State} (σ : Signal) (h : Inv S s) : Inv S (applySignal σ s) where
  memWf := by
    rw [applySignal_mem]
    split_ifs
    · exact write_wf _ _ h.memWf
    · exact h.memWf
  stepRange := by simpa using h.stepRange
  logBytes := by
    rw [applySignal_log]
    split_ifs
    · simpa [or_imp, forall_and] using And.intro h.logBytes s.bus.isLt
    · simpa using h.logBytes
  outIsLast := by
    rw [applySignal_log, applySignal_out]
    split_ifs
    · simp
    · simpa using h.outIsLast

theorem dispatchList_inv {S : Nat} (l : List Signal) {s : State} (h : Inv S s) : Inv S (dispatchList l s) := by
  induction l generalizing s with
  | nil => exact h
  | cons σ l ih => exact ih (applySignal_inv σ h)

theorem clockStep_inv {c : Config} (hc : c.wf = true) {s : State} (h : Inv c.steps s) :
    Inv c.steps (clockStep c s) := by
  rcases clockStep_cases c s with ⟨-, heq⟩ | ⟨-, heq⟩
  · rwa [heq]
  · rw [heq]
    simp only [Config.wf, Bool.and_eq_true, decide_eq_true_eq] at hc
    obtain ⟨hlow, hhigh⟩ := hc
    refine { dispatchList_inv (currentList c s) h with stepRange := ?_ }
    rw [microStep, nextStepIndex_toNat (by omega) hhigh]
    exact Nat.mod_lt _ (by omega)

/-- Settles O48: every signal keeps the memory's form and the events, and the micro-step sets the counter below
`S`. -/
theorem anyMatrixKeepsTheStateGood : Obligations.AnyMatrixKeepsTheStateGood := by
  intro c s t hc hinv hstep
  rw [stepWith_eq] at hstep
  cases hstep
  exact clockStep_inv hc hinv

/-! ## Reset and launch -/

/-- Settles O55: the definition of the reset state, field by field. -/
theorem resetValues : Obligations.ResetValues :=
  ⟨rfl, rfl, rfl, rfl, rfl, rfl, rfl, rfl, rfl, rfl, fun _ => rfl, rfl⟩

/-- The loader writes memory only (42_ram.md R66). -/
theorem loadImage_eq (image : List (Nibble × Byte)) (s : State) :
    loadImage image s = { s with mem := (loadImage image s).mem } := by
  induction image generalizing s with
  | nil => rfl
  | cons e rest ih => exact ih (setCell e.1 e.2 s)

/-- A reset machine meets the reference build's invariant with any well-formed memory. -/
theorem referenceInv_reset_mem {m : Memory} (hm : m.wf = true) : ReferenceInv { State.reset with mem := m } where
  base := ⟨hm, by simp [State.reset], by simp [State.reset], by simp [State.reset]⟩
  selected := by simp [State.reset]
  fetched := by simp [State.reset]
  haltedAtHlt := by simp [State.reset]

/-- Settles O50: a launch state is the reset state but for its memory, which loading keeps in canonical form. -/
theorem launchMeetsTheReferenceState : Obligations.LaunchMeetsTheReferenceState := by
  refine ⟨referenceInv_reset_mem reset_wf, fun image => ?_⟩
  rw [launch, loadImage_eq]
  exact referenceInv_reset_mem (loadImage_wf image reset_wf)

end Sys2Proof.Machine
end

section
/-! PROOFS. What one step of the reference build does, kind by kind, and who writes what (30_encoding.md R50). -/

namespace Sys2Proof.Machine

/-- The micro-steps of the reference build by kind, each with the state it leaves: the two fetch steps
(44_sequencer.md R80), the execute steps of LDA, ADD, OUT and HLT (45_instructions.md R88 to R91), and the steps
whose list is empty. -/
inductive ReferenceStep (s : State) : State → Prop
  | fetchAddress (hk : s.stepCounter = 0) :
      ReferenceStep s { s with bus := s.pc.setWidth 8, mar := s.pc, stepCounter := 1 }
  | fetchWord (hk : s.stepCounter = 1) :
      ReferenceStep s
        { s with bus := s.mem.read s.mar, ir := s.mem.read s.mar, pc := s.pc + 1, stepCounter := 2 }
  | selectOperand (hop : s.opcode = 1 ∨ s.opcode = 2) (hk : s.stepCounter = 2) :
      ReferenceStep s { s with bus := s.addrField.setWidth 8, mar := s.addrField, stepCounter := 3 }
  | ldaLoad (hop : s.opcode = 1) (hk : s.stepCounter = 3) :
      ReferenceStep s { s with bus := s.mem.read s.mar, a := s.mem.read s.mar, stepCounter := 4 }
  | addLoad (hop : s.opcode = 2) (hk : s.stepCounter = 3) :
      ReferenceStep s { s with bus := s.mem.read s.mar, b := s.mem.read s.mar, stepCounter := 4 }
  | addSum (hop : s.opcode = 2) (hk : s.stepCounter = 4) :
      ReferenceStep s
        { s with bus := aluCompute false s.a s.b, a := aluCompute false s.a s.b, stepCounter := 0 }
  | outEmit (hop : s.opcode = 14) (hk : s.stepCounter = 2) :
      ReferenceStep s { s with bus := s.a, out := s.a, log := s.log ++ [s.a.toNat], stepCounter := 3 }
  | hltStop (hop : s.opcode = 15) (hk : s.stepCounter = 2) :
      ReferenceStep s { s with halt := true, stepCounter := 3 }
  | idle (hk : 2 ≤ s.stepCounter.toNat) (hlist : referenceMatrix s.opcode s.stepCounter = []) :
      ReferenceStep s { s with stepCounter := nextStepIndex 5 s.stepCounter }

/-- The entries of M_ref that are not empty, and where it is empty (30_encoding.md R50). -/
theorem referenceMatrix_cases (op : Nibble) (k : StepIndex) :
    k = 0 ∨ k = 1 ∨ ((op = 1 ∨ op = 2) ∧ k = 2) ∨ (op = 1 ∧ k = 3) ∨ (op = 2 ∧ k = 3) ∨ (op = 2 ∧ k = 4) ∨
    (op = 14 ∧ k = 2) ∨ (op = 15 ∧ k = 2) ∨ (2 ≤ k.toNat ∧ referenceMatrix op k = []) := by
  revert op k
  decide

theorem microStep_reference (s : State) :
    microStep reference s =
      { dispatchList (referenceMatrix s.opcode s.stepCounter) s with
        stepCounter := nextStepIndex 5 s.stepCounter } := rfl

/-- The state a kind of step names is the one the sequencer computes. -/
theorem ReferenceStep.microStep_eq {s t : State} (h : ReferenceStep s t) : microStep reference s = t := by
  rw [microStep_reference]
  cases h with
  | fetchAddress hk => simp [hk, fetchStep0, applySignal, nextStepIndex]
  | fetchWord hk => simp [hk, fetchStep1, applySignal, nextStepIndex]
  | selectOperand hop hk => rcases hop with hop | hop <;> simp [hop, hk, applySignal, nextStepIndex]
  | ldaLoad hop hk | addLoad hop hk | addSum hop hk | outEmit hop hk | hltStop hop hk =>
    simp [hop, hk, applySignal, nextStepIndex]
  | idle hk hlist => simp [hlist]

/-- Every micro-step of the reference build is of one of the kinds. -/
theorem referenceStep_microStep (s : State) : ReferenceStep s (microStep reference s) := by
  have hkind : ∃ t, ReferenceStep s t := by
    rcases referenceMatrix_cases s.opcode s.stepCounter with
      hk | hk | ⟨hop, hk⟩ | ⟨hop, hk⟩ | ⟨hop, hk⟩ | ⟨hop, hk⟩ | ⟨hop, hk⟩ | ⟨hop, hk⟩ | ⟨hk, hlist⟩
    · exact ⟨_, .fetchAddress hk⟩
    · exact ⟨_, .fetchWord hk⟩
    · exact ⟨_, .selectOperand hop hk⟩
    · exact ⟨_, .ldaLoad hop hk⟩
    · exact ⟨_, .addLoad hop hk⟩
    · exact ⟨_, .addSum hop hk⟩
    · exact ⟨_, .outEmit hop hk⟩
    · exact ⟨_, .hltStop hop hk⟩
    · exact ⟨_, .idle hk hlist⟩
  obtain ⟨t, ht⟩ := hkind
  rwa [ht.microStep_eq]

/-- A step of the reference build: nothing on a halted machine, else a micro-step of one of the kinds. -/
theorem step_reference_cases {s t : State} (h : step s = .next t) :
    (s.halt = true ∧ t = s) ∨ (s.halt = false ∧ ReferenceStep s t) := by
  rw [step_eq] at h
  cases h
  rcases clockStep_cases reference s with ⟨hhalt, heq⟩ | ⟨hhalt, heq⟩
  · exact .inl ⟨hhalt, heq⟩
  · exact .inr ⟨hhalt, heq ▸ referenceStep_microStep s⟩

/-! ## Who writes what

For each element, the kinds of step that write it; every other kind leaves it. -/

namespace ReferenceStep

variable {s t : State}

theorem mem_eq (h : ReferenceStep s t) : t.mem = s.mem := by
  cases h <;> rfl

theorem writesA (h : ReferenceStep s t) (hne : t.a ≠ s.a) :
    (s.opcode = 1 ∧ s.stepCounter = 3) ∨ (s.opcode = 2 ∧ s.stepCounter = 4) := by
  cases h with
  | ldaLoad hop hk => exact .inl ⟨hop, hk⟩
  | addSum hop hk => exact .inr ⟨hop, hk⟩
  | _ => exact absurd rfl hne

theorem writesB (h : ReferenceStep s t) (hne : t.b ≠ s.b) : s.opcode = 2 ∧ s.stepCounter = 3 := by
  cases h with
  | addLoad hop hk => exact ⟨hop, hk⟩
  | _ => exact absurd rfl hne

theorem writesOutput (h : ReferenceStep s t) (hne : t.out ≠ s.out ∨ t.log ≠ s.log) :
    s.opcode = 14 ∧ s.stepCounter = 2 := by
  cases h with
  | outEmit hop hk => exact ⟨hop, hk⟩
  | _ => exact absurd hne (by simp)

theorem writesHalt (h : ReferenceStep s t) (hne : t.halt ≠ s.halt) :
    (s.opcode = 15 ∧ s.stepCounter = 2) ∧ t.opcode = 15 ∧ t.stepCounter = 3 := by
  cases h with
  | hltStop hop hk => exact ⟨⟨hop, hk⟩, hop, rfl⟩
  | _ => exact absurd rfl hne

theorem writesMar (h : ReferenceStep s t) (hne : t.mar ≠ s.mar) :
    s.stepCounter = 0 ∨ ((s.opcode = 1 ∨ s.opcode = 2) ∧ s.stepCounter = 2) := by
  cases h with
  | fetchAddress hk => exact .inl hk
  | selectOperand hop hk => exact .inr ⟨hop, hk⟩
  | _ => exact absurd rfl hne

theorem writesBus (h : ReferenceStep s t) (hne : t.bus ≠ s.bus) :
    s.stepCounter = 0 ∨ s.stepCounter = 1 ∨
      ((s.opcode = 1 ∨ s.opcode = 2) ∧ (s.stepCounter = 2 ∨ s.stepCounter = 3)) ∨
      (s.opcode = 2 ∧ s.stepCounter = 4) ∨ (s.opcode = 14 ∧ s.stepCounter = 2) := by
  cases h with
  | fetchAddress hk => exact .inl hk
  | fetchWord hk => exact .inr (.inl hk)
  | selectOperand hop hk => exact .inr (.inr (.inl ⟨hop, .inl hk⟩))
  | ldaLoad hop hk => exact .inr (.inr (.inl ⟨.inl hop, .inr hk⟩))
  | addLoad hop hk => exact .inr (.inr (.inl ⟨.inr hop, .inr hk⟩))
  | addSum hop hk => exact .inr (.inr (.inr (.inl ⟨hop, hk⟩)))
  | outEmit hop hk => exact .inr (.inr (.inr (.inr ⟨hop, hk⟩)))
  | hltStop | idle => exact absurd rfl hne

theorem writesIr (h : ReferenceStep s t) (hne : t.ir ≠ s.ir) : s.stepCounter = 1 := by
  cases h with
  | fetchWord hk => exact hk
  | _ => exact absurd rfl hne

/-- The counter a micro-step leaves (44_sequencer.md R84). -/
theorem stepCounter_toNat (h : ReferenceStep s t) : t.stepCounter.toNat = (s.stepCounter.toNat + 1) % 5 := by
  rw [← h.microStep_eq]
  exact nextStepIndex_toNat (by decide) (by decide) s.stepCounter

/-- PC advances in fetch step 1 alone (41_program_counter.md R62). -/
theorem pc_eq (h : ReferenceStep s t) : t.pc = if s.stepCounter = 1 then s.pc + 1 else s.pc := by
  cases h with
  | fetchWord hk => simp [hk]
  | idle hk =>
    have hne : s.stepCounter ≠ 1 := fun h1 => absurd hk (by rw [h1]; decide)
    exact (if_neg hne).symm
  | fetchAddress hk | selectOperand _ hk | ldaLoad _ hk | addLoad _ hk | addSum _ hk | outEmit _ hk
  | hltStop _ hk => simp [hk]

end ReferenceStep

/-- Settles O47: a halted machine's step is the state itself, and each kind of micro-step writes its own elements. -/
theorem referenceStepWritesOnlyItsRegisters : Obligations.ReferenceStepWritesOnlyItsRegisters := by
  intro s t _ hstep
  rcases step_reference_cases hstep with ⟨hhalt, rfl⟩ | ⟨hrun, h⟩
  · simp [hhalt]
  · refine ⟨h.mem_eq, h.writesA, h.writesB, h.writesOutput, fun hne => (h.writesHalt hne).1, h.writesMar,
      h.writesBus, h.writesIr, ?counter, ?halted, fun _ => h.pc_eq⟩
    case counter => simpa [hrun] using h.stepCounter_toNat
    case halted => simp [hrun]

/-! ## The invariant -/

/-- Between fetch step 0 and fetch step 1 MAR holds PC: only fetch step 0 leaves the counter at 1. -/
theorem ReferenceStep.selected {s t : State} (h : ReferenceStep s t) (hrange : s.stepCounter.toNat < 5)
    (hk : t.stepCounter = 1) : t.mar = t.pc := by
  have hcounter := h.stepCounter_toNat
  rw [hk] at hcounter
  have hzero : s.stepCounter = 0 := BitVec.eq_of_toNat_eq (by simp at hcounter ⊢; omega)
  cases h with
  | fetchAddress => rfl
  | fetchWord hk' | selectOperand _ hk' | ldaLoad _ hk' | addLoad _ hk' | addSum _ hk' | outEmit _ hk'
  | hltStop _ hk' | idle hk' => simp [hzero] at hk'

/-- From the end of the fetch to the end of the cycle IR holds the word of the cell before PC: fetch step 1 makes it
so, and the execute steps write none of IR, PC and memory. -/
theorem ReferenceStep.fetched {s t : State} (h : ReferenceStep s t) (hinv : ReferenceInv s)
    (hk : 2 ≤ t.stepCounter.toNat) : t.ir = t.mem.read (t.pc - 1) := by
  cases h with
  | fetchAddress => simp at hk
  | fetchWord hk1 => simp [hinv.selected hk1]
  | addSum => simp at hk
  | idle hk2 => exact hinv.fetched hk2
  | selectOperand _ hk2 | ldaLoad _ hk2 | addLoad _ hk2 | outEmit _ hk2 | hltStop _ hk2 =>
    exact hinv.fetched (by simp [hk2])

/-- Settles O49: a halted machine stands; a running one keeps the invariant of every matrix, and each of the other
three clauses by the kind of its step. -/
theorem stepKeepsTheReferenceState : Obligations.StepKeepsTheReferenceState := by
  intro s t hinv hstep
  rcases step_reference_cases hstep with ⟨-, rfl⟩ | ⟨hrun, h⟩
  · exact hinv
  · exact {
      base := anyMatrixKeepsTheStateGood reference s t rfl hinv.base hstep
      selected := h.selected hinv.base.stepRange
      fetched := h.fetched hinv
      haltedAtHlt := fun hhalt => (h.writesHalt (by simp [hhalt, hrun])).2 }

end Sys2Proof.Machine
end

section
/-! PROOFS. Two runs of the reference build from boundaries that differ in BUS, MAR, B, IR and OUT: the fetch makes
BUS, MAR and IR equal, and ADD loads B before it adds it (10_state.md R24, closing paragraph). -/

namespace Sys2Proof.Machine

open Sys2Proof.Claims

/-- Two states that agree on every element but B and OUT; on those too where `sameB` or `sameOut` says so, and on B
where the next step adds it. -/
structure AgreeButBAndOut (sameB sameOut : Prop) (s t : State) : Prop where
  rest : ∃ b out, t = { s with b := b, out := out }
  b : sameB → s.b = t.b
  out : sameOut → s.out = t.out
  summand : s.opcode = 2 → s.stepCounter = 4 → s.b = t.b

/-- An empty list of ADD's row is not at step 3, so no empty step leads to ADD's step 4. -/
theorem nextStepIndex_ne_four_of_add_idle {k : StepIndex} (hlist : referenceMatrix 2 k = []) :
    nextStepIndex 5 k ≠ 4 := by
  revert k
  decide

section
variable {sameB sameOut : Prop} {s t : State}

/-- A step of `s` has its like from `t`, and the two end in agreement: B is read by ADD's step 4 alone, which follows
the step that loads it, and OUT by none. -/
theorem ReferenceStep.exists_agreeing {s' : State} (hstep : ReferenceStep s s')
    (h : AgreeButBAndOut sameB sameOut s t) : ∃ t', ReferenceStep t t' ∧ AgreeButBAndOut sameB sameOut s' t' := by
  obtain ⟨⟨b, out, rfl⟩, hb, hout, hsum⟩ := h
  cases hstep with
  | fetchAddress hk => exact ⟨_, .fetchAddress hk, ⟨b, out, rfl⟩, hb, hout, by simp⟩
  | fetchWord hk => exact ⟨_, .fetchWord hk, ⟨b, out, rfl⟩, hb, hout, by simp⟩
  | selectOperand hop hk => exact ⟨_, .selectOperand hop hk, ⟨b, out, rfl⟩, hb, hout, by simp⟩
  | ldaLoad hop hk =>
    exact ⟨_, .ldaLoad hop hk, ⟨b, out, rfl⟩, hb, hout, fun hadd => absurd (hop.symm.trans hadd) (by decide)⟩
  | addLoad hop hk => exact ⟨_, .addLoad hop hk, ⟨_, out, rfl⟩, fun _ => rfl, hout, fun _ _ => rfl⟩
  | addSum hop hk =>
    obtain rfl : s.b = b := hsum hop hk
    exact ⟨_, .addSum hop hk, ⟨s.b, out, rfl⟩, hb, hout, by simp⟩
  | outEmit hop hk => exact ⟨_, .outEmit hop hk, ⟨b, _, rfl⟩, hb, fun _ => rfl, by simp⟩
  | hltStop hop hk => exact ⟨_, .hltStop hop hk, ⟨b, out, rfl⟩, hb, hout, by simp⟩
  | idle hk hlist =>
    refine ⟨_, .idle hk hlist, ⟨b, out, rfl⟩, hb, hout, fun hadd hfour => absurd hfour ?_⟩
    exact nextStepIndex_ne_four_of_add_idle (hadd ▸ hlist)

theorem AgreeButBAndOut.microStep (h : AgreeButBAndOut sameB sameOut s t) :
    AgreeButBAndOut sameB sameOut (microStep reference s) (microStep reference t) := by
  obtain ⟨t', ht, hagree⟩ := (referenceStep_microStep s).exists_agreeing h
  rwa [ht.microStep_eq]

theorem AgreeButBAndOut.halt_eq (h : AgreeButBAndOut sameB sameOut s t) : s.halt = t.halt := by
  obtain ⟨b, out, rfl⟩ := h.rest
  rfl

theorem AgreeButBAndOut.clockStep (h : AgreeButBAndOut sameB sameOut s t) :
    AgreeButBAndOut sameB sameOut (clockStep reference s) (clockStep reference t) := by
  rcases clockStep_cases reference s with ⟨hs, heq⟩ | ⟨hs, heq⟩
  · rwa [heq, clockStep_halted (h.halt_eq ▸ hs)]
  · rw [heq, clockStep_running (h.halt_eq ▸ hs)]
    exact h.microStep

theorem AgreeButBAndOut.clockSteps (n : Nat) (h : AgreeButBAndOut sameB sameOut s t) :
    AgreeButBAndOut sameB sameOut (clockSteps reference n s) (clockSteps reference n t) := by
  induction n generalizing s t with
  | zero => exact h
  | succ n ih => exact ih h.clockStep

theorem ReferenceStep.clockStep_eq (h : ReferenceStep s t) (hrun : s.halt = false) : clockStep reference s = t :=
  (clockStep_running hrun).trans h.microStep_eq

/-- The first fetch step from a boundary. -/
theorem clockStep_of_atBoundary (h : s.atBoundary) :
    clockStep reference s = { s with bus := s.pc.setWidth 8, mar := s.pc, stepCounter := 1 } :=
  ReferenceStep.clockStep_eq (.fetchAddress h.1) h.2

/-- Both fetch steps from a boundary (44_sequencer.md R80). -/
theorem clockSteps_two_of_atBoundary (h : s.atBoundary) : clockSteps reference 2 s = fetched s := by
  rw [clockSteps_succ, clockStep_of_atBoundary h]
  exact ReferenceStep.clockStep_eq (.fetchWord rfl) h.2

/-- Two boundary states with the same PC, memory, A and LOG differ in five registers at most. -/
theorem exists_eq_of_same_boundary (hs : s.atBoundary) (ht : t.atBoundary) (hpc : s.pc = t.pc)
    (hmem : s.mem = t.mem) (ha : s.a = t.a) (hlog : s.log = t.log) :
    ∃ bus mar b ir out, t = { s with bus := bus, mar := mar, b := b, ir := ir, out := out } := by
  obtain ⟨hsk, hsrun⟩ := hs
  obtain ⟨htk, htrun⟩ := ht
  refine ⟨t.bus, t.mar, t.b, t.ir, t.out, ?_⟩
  rw [hpc, hmem, ha, hlog, hsk, hsrun, ← htk, ← htrun]

/-- After the fetch the five registers are down to B and OUT. -/
theorem agreeButBAndOut_fetched (s : State) (bus : Byte) (mar : Nibble) (b ir out : Byte) :
    AgreeButBAndOut (s.b = b) (s.out = out) (fetched s)
      (fetched { s with bus := bus, mar := mar, b := b, ir := ir, out := out }) :=
  ⟨⟨b, out, rfl⟩, id, id, by simp [fetched]⟩

end

/-- Settles O53: the first micro-steps are the fetch; from the second on the two machines agree on all but B and
OUT. -/
theorem launchValuesOfFiveRegistersDoNotMatter : Obligations.LaunchValuesOfFiveRegistersDoNotMatter := by
  intro s t hs ht hpc hmem ha hlog n
  refine ⟨_, _, runWith_eq reference n s, runWith_eq reference n t, ?_⟩
  obtain ⟨bus, mar, b, ir, out, rfl⟩ := exists_eq_of_same_boundary hs ht hpc hmem ha hlog
  match n with
  | 0 => simp
  | 1 =>
    simp only [clockSteps_succ, clockSteps_zero, clockStep_of_atBoundary hs, clockStep_of_atBoundary ht]
    simp
  | n + 2 =>
    have hagree := (agreeButBAndOut_fetched s bus mar b ir out).clockSteps n
    rw [Nat.add_comm, clockSteps_add, clockSteps_add, clockSteps_two_of_atBoundary hs,
      clockSteps_two_of_atBoundary ht]
    obtain ⟨⟨b', out', heq⟩, hb, hout, -⟩ := hagree
    refine ⟨?_, ?_, ?_, ?_, ?_, ?_, fun _ => ⟨?_, ?_⟩, fun _ => ?_, hb, hout⟩
    all_goals rw [heq]

end Sys2Proof.Machine
end

section
/-! PROOFS. The canonical form of a memory determines it (20_memory.md R28; log entry 9): what the first entry of a
canonical memory says of its cells, and extensionality. -/

namespace Sys2Proof.Machine

section
variable {lo j k : Nat} {v : Byte} {m rest : Memory}

/-! ## The cells of a memory with a first entry -/

theorem wfFrom_cons :
    Memory.wfFrom lo ((j, v) :: rest) = true ↔
      lo ≤ j ∧ j < 16 ∧ v ≠ Memory.unlisted ∧ Memory.wfFrom (j + 1) rest = true := by
  simp [Memory.wfFrom, and_assoc]

@[simp] theorem cell_cons_same : Memory.cell ((j, v) :: rest) j = v := by
  simp [Memory.cell]

theorem cell_cons_other (h : j ≠ k) : Memory.cell ((j, v) :: rest) k = Memory.cell rest k := by
  simp [Memory.cell, h]

/-- A canonical memory that starts at `lo` lists no cell below it. -/
theorem cell_eq_unlisted_of_lt (h : Memory.wfFrom lo m = true) (hk : k < lo) :
    Memory.cell m k = Memory.unlisted := by
  induction m generalizing lo with
  | nil => rfl
  | cons e rest ih =>
    obtain ⟨j, v⟩ := e
    obtain ⟨hlo, -, -, hrest⟩ := wfFrom_cons.mp h
    rw [cell_cons_other (by omega), ih hrest (by omega)]

/-- A canonical memory starts no later than any cell that holds something else than an unlisted one. -/
theorem le_of_cell_ne_unlisted (h : Memory.wfFrom lo m = true) (hk : Memory.cell m k ≠ Memory.unlisted) :
    lo ≤ k :=
  Nat.le_of_not_lt fun hlt => hk (cell_eq_unlisted_of_lt h hlt)

end

/-! ## Extensionality -/

section
variable {lo lo' : Nat} {m n : Memory}

/-- Canonical memories with the same sixteen cells have the same entries: each one's first entry is listed in the
other, so both start at the same cell with the same contents, and the cells after it decide the rest. -/
theorem eq_of_cell_eq (hm : Memory.wfFrom lo m = true) (hn : Memory.wfFrom lo' n = true)
    (hcell : ∀ k < 16, Memory.cell m k = Memory.cell n k) : m = n := by
  induction m generalizing lo lo' n with
  | nil =>
    cases n with
    | nil => rfl
    | cons e rest =>
      obtain ⟨i, w⟩ := e
      obtain ⟨-, hi, hw, -⟩ := wfFrom_cons.mp hn
      exact absurd ((hcell i hi).trans cell_cons_same).symm hw
  | cons e rest ih =>
    obtain ⟨j, v⟩ := e
    obtain ⟨-, hj, hv, hrest⟩ := wfFrom_cons.mp hm
    have hjcell := (hcell j hj).symm.trans cell_cons_same
    cases n with
    | nil => exact absurd hjcell.symm hv
    | cons e' rest' =>
      obtain ⟨i, w⟩ := e'
      obtain ⟨-, hi, hw, hrest'⟩ := wfFrom_cons.mp hn
      have hicell := (hcell i hi).trans cell_cons_same
      have hij : i ≤ j :=
        le_of_cell_ne_unlisted (wfFrom_cons.mpr ⟨le_rfl, hi, hw, hrest'⟩) (hjcell ▸ hv)
      have hji : j ≤ i :=
        le_of_cell_ne_unlisted (wfFrom_cons.mpr ⟨le_rfl, hj, hv, hrest⟩) (hicell ▸ hw)
      obtain rfl := Nat.le_antisymm hij hji
      have hvw : v = w := cell_cons_same.symm.trans hicell
      have htail : ∀ k < 16, Memory.cell rest k = Memory.cell rest' k := by
        intro k hk
        by_cases hik : i = k
        · rw [cell_eq_unlisted_of_lt hrest (by omega), cell_eq_unlisted_of_lt hrest' (by omega)]
        · simpa only [cell_cons_other hik] using hcell k hk
      rw [hvw, ih hrest hrest' htail]

end

/-- Settles O54: every cell below sixteen is read at some address. -/
theorem canonicalMemoriesAreEqual : Obligations.CanonicalMemoriesAreEqual := by
  intro m n hm hn hread
  refine eq_of_cell_eq hm hn fun k hk => ?_
  have hk' : (BitVec.ofNat 4 k).toNat = k := Nat.mod_eq_of_lt hk
  simpa only [Memory.read, hk'] using hread (BitVec.ofNat 4 k)

end Sys2Proof.Machine
end

section
/-! PROOFS. Decoding and encoding the rows of the opcode table: the instruction word (30_encoding.md R41 to R46, R52)
and the slot of a control signal (R47, R49). -/

namespace Sys2Proof.Machine

/-! ## The fields of a word -/

/-- The opcode field is `floor(w / 16)` (30_encoding.md R42). -/
theorem opcodeOf_toNat (w : Byte) : (opcodeOf w).toNat = w.toNat / 16 := by
  have hw : w.toNat < 256 := w.isLt
  rw [opcodeOf, BitVec.extractLsb'_toNat, Nat.shiftRight_eq_div_pow]
  omega

/-- The address field is `w mod 16` (30_encoding.md R42). -/
theorem addrOf_toNat (w : Byte) : (addrOf w).toNat = w.toNat % 16 := by
  rw [addrOf, BitVec.extractLsb'_toNat, Nat.shiftRight_zero]

/-! ## The opcode map -/

/-- The opcode a row of the opcode map is for: the upper field of its match (30_encoding.md R44, R45). -/
def rowOpcode (r : CellRow) : Nibble := opcodeOf r.pattern

/-- No opcode is on two rows. -/
theorem rowOpcode_injOn {r r' : CellRow} (hr : r ∈ cellRows) (hr' : r' ∈ cellRows)
    (h : rowOpcode r = rowOpcode r') : r = r' :=
  List.inj_on_of_nodup_map (by decide : (cellRows.map rowOpcode).Nodup) hr hr' h

/-- Every opcode is on a row: "all 256 instruction words are accounted for" (30_encoding.md R45). -/
theorem exists_row_of_opcode (op : Nibble) : ∃ r ∈ cellRows, rowOpcode r = op := by
  revert op
  decide

/-- Every row's mask selects the opcode field and its match is zero below it. -/
theorem row_mask_pattern {r : CellRow} (hr : r ∈ cellRows) :
    r.mask = 0xF0 ∧ r.pattern = cellWord (rowOpcode r) 0 := by
  revert r
  decide

theorem and_mask_eq_cellWord (w : Byte) : w &&& 0xF0 = cellWord (opcodeOf w) 0 := by
  revert w
  decide

/-- A row's match and mask select the words of its opcode. -/
theorem covers_iff {r : CellRow} (hr : r ∈ cellRows) (w : Byte) : r.covers w = true ↔ opcodeOf w = rowOpcode r := by
  obtain ⟨hmask, hpattern⟩ := row_mask_pattern hr
  rw [CellRow.covers, hmask, hpattern, and_mask_eq_cellWord, beq_iff_eq]
  exact ⟨fun h => by simpa using congrArg opcodeOf h, fun h => by rw [h]⟩

/-- The word of a row's instruction is the row's opcode beside the instruction's operand. -/
theorem encode_build {r : CellRow} (hr : r ∈ cellRows) (low : Nibble) :
    encode (r.build low) = .cell (cellWord (rowOpcode r) low) := by
  fin_cases hr <;> rfl

/-! ## The instruction word -/

/-- The row of a word's opcode is the one the decoder finds. -/
theorem decodeCell_of_row {r : CellRow} (hr : r ∈ cellRows) {w : Byte} (h : opcodeOf w = rowOpcode r) :
    decodeCell w = .ok (r.build (addrOf w)) := by
  have hsome : (cellRows.find? (·.covers w)).isSome :=
    List.find?_isSome.mpr ⟨r, hr, (covers_iff hr w).mpr h⟩
  obtain ⟨r', hfind⟩ := Option.isSome_iff_exists.mp hsome
  have hr' := List.mem_of_find?_eq_some hfind
  have hcovers : r'.covers w = true := by simpa using List.find?_some hfind
  obtain rfl := rowOpcode_injOn hr hr' (h.symm.trans ((covers_iff hr' w).mp hcovers))
  rw [decodeCell, hfind]

/-- Every word decodes, to the instruction whose word it is (30_encoding.md R45). -/
theorem exists_decodeCell (w : Byte) : ∃ i, decodeCell w = .ok i ∧ encode i = .cell w := by
  obtain ⟨r, hr, hop⟩ := exists_row_of_opcode (opcodeOf w)
  exact ⟨_, decodeCell_of_row hr hop.symm, by rw [encode_build hr, hop, cellWord_fields]⟩

/-! ## The slot of a control signal -/

@[simp] theorem decodeSlot_encodeSlot (σ : Signal) : decodeSlot (encodeSlot σ) = .ok σ := by
  cases σ <;> rfl

/-- A valid slot is the `valid` bit above the signal's number (30_encoding.md R49). -/
theorem valid_append_id {w : BitVec 5} (h : w.getLsbD 4 = true) : (1 : BitVec 1) ++ w.extractLsb' 0 4 = w := by
  revert w
  decide

/-- A slot that decodes is the slot of the signal it decodes to. -/
theorem encodeSlot_of_decodeSlot {w : BitVec 5} {σ : Signal} (h : decodeSlot w = .ok σ) : encodeSlot σ = w := by
  unfold decodeSlot at h
  split at h
  next hvalid =>
    split at h
    next τ hfind =>
      obtain rfl : τ = σ := by simpa using h
      have hid : τ.id = w.extractLsb' 0 4 := by simpa using List.find?_some hfind
      rw [encodeSlot, hid, valid_append_id hvalid]
    next => cases h
  next => cases h

@[simp] theorem encode_toInstr (σ : Signal) : encode σ.toInstr = .slot (encodeSlot σ) := by
  cases σ <;> rfl

/-! ## Every row of the table -/

/-- A row of the opcode table is a row of the opcode map with its operand or a control signal. -/
theorem exists_row_or_signal (i : Instr) :
    (∃ r ∈ cellRows, ∃ low, i = r.build low) ∨ (∃ σ ∈ Signal.all, i = σ.toInstr) := by
  cases i with
  | lda | add | out | hlt | unmapped0 | unmapped3 | unmapped4 | unmapped5 | unmapped6 | unmapped7 | unmapped8
  | unmapped9 | unmapped10 | unmapped11 | unmapped12 | unmapped13 => exact .inl (by simp [cellRows])
  | _ => exact .inr (by decide)

theorem decode_encode (i : Instr) : decode (encode i) = .ok i := by
  rcases exists_row_or_signal i with ⟨r, hr, low, rfl⟩ | ⟨σ, -, rfl⟩
  · have hrow := decodeCell_of_row hr (opcodeOf_cellWord (rowOpcode r) low)
    rw [encode_build hr, decode, hrow, addrOf_cellWord]
  · simp [decode]

theorem encode_of_decode {code : Code} {i : Instr} (h : decode code = .ok i) : encode i = code := by
  cases code with
  | cell w =>
    obtain ⟨j, hj, hword⟩ := exists_decodeCell w
    obtain rfl : j = i := by simpa [decode, hj] using h
    exact hword
  | slot w =>
    cases hslot : decodeSlot w with
    | ok σ =>
      obtain rfl : σ.toInstr = i := by simpa [decode, hslot] using h
      rw [encode_toInstr, encodeSlot_of_decodeSlot hslot]
    | error e => simp [decode, hslot] at h

/-! ## The statements -/

/-- Settles O1: each opcode is on exactly one row of the map, each valid slot names exactly one signal. -/
theorem decodeEncodeRoundTrip : Obligations.DecodeEncodeRoundTrip :=
  ⟨fun i _ => decode_encode i, fun _ _ => encode_of_decode⟩

/-- Settles O2: the decoder of a sequence reads its first cell, which is the word of an instruction. -/
theorem everyWordIsOneInstruction : Obligations.EveryWordIsOneInstruction := by
  intro w rest
  obtain ⟨i, hdecode, hword⟩ := exists_decodeCell w
  exact ⟨opcodeOf_toNat w, addrOf_toNat w, i, by rw [decodeBytes, hdecode], hword⟩

/-- Settles O3: each word is the encoding of its row; the last slot's `valid` bit is 0. -/
theorem sampleWordsDecode : Obligations.SampleWordsDecode :=
  ⟨decode_encode (.lda 14), decode_encode (.add 15), decode_encode (.out 5), decode_encode (.hlt 7),
    decode_encode (.unmapped0 14), decode_encode (.unmapped5 10), decode_encode (.unmapped13 7),
    decode_encode .pcOut, decode_encode .aluSubOut, decode_encode .halt, rfl⟩

end Sys2Proof.Machine
end

section
/-! PROOFS. The ROM word of a list of signals and the ROM image of the reference matrix (30_encoding.md R48 to R50). -/

namespace Sys2Proof.Machine

/-! ## The slots of a ROM word -/

/-- Slot `j` of a ROM word, as a digit of the word's number (30_encoding.md R49). -/
theorem romSlot_ofNat (n : Nat) {j : Nat} (hj : j < 4) :
    romSlot (BitVec.ofNat 20 n) j = BitVec.ofNat 5 (n >>> (5 * j)) := by
  apply BitVec.eq_of_getLsbD_eq
  intro k hk
  have hin : 5 * j + k < 20 := by omega
  rw [romSlot, BitVec.getLsbD_extractLsb', BitVec.getLsbD_ofNat, BitVec.getLsbD_ofNat, Nat.testBit_shiftRight]
  simp [hk, hin]

/-- The digits of a list's number are the slots of its signals, and zero past its end. -/
theorem ofNat_romNumber_shiftRight (l : List Signal) (j : Nat) :
    BitVec.ofNat 5 (romNumber l >>> (5 * j)) = (l[j]?.map encodeSlot).getD 0 := by
  induction l generalizing j with
  | nil => simp [romNumber]
  | cons σ rest ih =>
    have hslot : (encodeSlot σ).toNat < 32 := (encodeSlot σ).isLt
    cases j with
    | zero =>
      apply BitVec.eq_of_toNat_eq
      simp [romNumber]
      omega
    | succ j =>
      have hrest : romNumber (σ :: rest) >>> 5 = romNumber rest := by
        rw [romNumber, Nat.shiftRight_eq_div_pow]
        omega
      rw [Nat.mul_succ, Nat.add_comm, Nat.shiftRight_add, hrest, ih, List.getElem?_cons_succ]

/-- The elements of a list read at the first `n` places, past its end none. -/
theorem filterMap_getElem?_range {α : Type} (l : List α) (n : Nat) :
    (List.range n).filterMap (fun j => l[j]?) = l.take n := by
  induction n generalizing l with
  | zero => rfl
  | succ n ih =>
    cases l with
    | nil => simp
    | cons x rest => simp [List.range_succ_eq_map, List.filterMap_map, ih]

/-- Each slot of a list's ROM word gives the list's signal at that place, if it has one. -/
theorem decodeSlot_romNumber (l : List Signal) {j : Nat} (hj : j < 4) :
    (decodeSlot (romSlot (BitVec.ofNat 20 (romNumber l)) j)).toOption = l[j]? := by
  rw [romSlot_ofNat _ hj, ofNat_romNumber_shiftRight]
  cases l[j]? with
  | none => rfl -- the zero slot is not valid
  | some σ => simp [Except.toOption]

/-- A ROM word keeps the first four signals of a list. -/
theorem decodeRomWord_romNumber (l : List Signal) : decodeRomWord (BitVec.ofNat 20 (romNumber l)) = l.take 4 := by
  rw [← filterMap_getElem?_range]
  exact List.filterMap_congr fun j hj => decodeSlot_romNumber l (List.mem_range.mp hj)

/-! ## Encoding a list -/

theorem encodeRomWord_of_le {l : List Signal} (h : l.length ≤ 4) :
    encodeRomWord l = some (BitVec.ofNat 20 (romNumber l)) := by
  simp [encodeRomWord, fitsRomWord, h]

theorem encodeRomWord_of_lt {l : List Signal} (h : 4 < l.length) : encodeRomWord l = none := by
  simp [encodeRomWord, fitsRomWord, h]

/-- The word a list is written to reads back as the list. -/
theorem decodeRomWord_of_encodeRomWord {l : List Signal} {w : BitVec 20} (h : encodeRomWord l = some w) :
    decodeRomWord w = l := by
  have hle : l.length ≤ 4 := by
    by_contra hlong
    simp [encodeRomWord_of_lt (Nat.lt_of_not_le hlong)] at h
  rw [encodeRomWord_of_le hle, Option.some_inj] at h
  rw [← h, decodeRomWord_romNumber, List.take_of_length_le hle]

/-! ## The reference image -/

/-- The address of an entry, `8·op + k` (30_encoding.md R48). -/
theorem romAddress_toNat (op : Nibble) (k : StepIndex) : (romAddress op k).toNat = 8 * op.toNat + k.toNat := by
  rw [romAddress, BitVec.toNat_append, ← Nat.shiftLeft_add_eq_or_of_lt k.isLt, Nat.shiftLeft_eq]
  omega

/-- The words R50 lists are those of the entries of the reference matrix, all 128 of them. -/
theorem encodeRomWord_referenceMatrix (op : Nibble) (k : StepIndex) :
    encodeRomWord (referenceMatrix op k) = some (referenceRom (romAddress op k)) := by
  revert op k
  decide

/-! ## The statements -/

/-- Settles O4: slot by slot, a word keeps the first four signals. -/
theorem romWordHoldsItsList : Obligations.RomWordHoldsItsList := by
  refine ⟨fun l h => ⟨_, encodeRomWord_of_le h, ?_⟩, fun l h => encodeRomWord_of_lt h⟩
  exact decodeRomWord_of_encodeRomWord (encodeRomWord_of_le h)

/-- Settles O5: the image's words encode the entries, and an encoded list reads back. -/
theorem romImageIsTheReferenceMatrix : Obligations.RomImageIsTheReferenceMatrix := by
  intro op k
  have hword := encodeRomWord_referenceMatrix op k
  exact ⟨romAddress_toNat op k, hword, decodeRomWord_of_encodeRomWord hword⟩

end Sys2Proof.Machine
end

section
/-! PROOFS. The width adjustment `fit` (40_bus_register_fit.md R53) and what the eight full adders compute
(43_alu.md R72 to R74). -/

namespace Sys2Proof.Machine

/-! ## The width adjustment -/

/-- Bit `k` of `fit` is the source's, or the default above the source. -/
theorem getLsbD_fit {m n : Nat} (v : BitVec m) (fill : Bool) {k : Nat} (hk : k < n) :
    (fit n v fill).getLsbD k = if k < m then v.getLsbD k else fill := by
  rw [fit, getLsbD_fromBits]
  simp [hk]

@[simp] theorem fit_same {m : Nat} (v : BitVec m) (fill : Bool) : fit m v fill = v := by
  apply BitVec.eq_of_getLsbD_eq
  intro k hk
  rw [getLsbD_fit v fill hk, if_pos hk]

/-- Extension to eight bits puts four zeros above the value. -/
theorem setWidth_eq_zeros_append (v : Nibble) : v.setWidth 8 = 0#4 ++ v :=
  BitVec.setWidth_eq_append (by decide)

/-- Settles O9: bit by bit, and with the default false `fit` is the change of width. -/
theorem fitCopiesLowBitsAndFills : Obligations.FitCopiesLowBitsAndFills := by
  refine ⟨fun m n v fill k hk => getLsbD_fit v fill hk, fun m v fill => fit_same v fill, fun v => ?_, fun v => ?_⟩
  · rw [fit_eq_setWidth, BitVec.setWidth_eq_extractLsb' (by decide)]
  · rw [fit_eq_setWidth, setWidth_eq_zeros_append]

/-! ## The chain of full adders -/

/-- One full adder: its result bit and its carry out add up its three inputs. -/
theorem fullAdder_toNat (c x y : Bool) :
    ((x ^^ y) ^^ c).toNat + 2 * ((c && x) || (c && y) || (x && y)).toNat = c.toNat + x.toNat + y.toNat := by
  cases c <;> cases x <;> cases y <;> rfl

/-- The chain's result bits and, above them, the carry out of the last adder add up the two numbers and the carry
in. -/
theorem bitsToNat_fullAdders (c : Bool) (l : List (Bool × Bool)) :
    bitsToNat (fullAdders c l).1 + 2 ^ l.length * (fullAdders c l).2.toNat =
      c.toNat + bitsToNat (l.map Prod.fst) + bitsToNat (l.map Prod.snd) := by
  induction l generalizing c with
  | nil => simp [fullAdders, bitsToNat]
  | cons p rest ih =>
    obtain ⟨x, y⟩ := p
    have hadder := fullAdder_toNat c x y
    have hrest := ih ((c && x) || (c && y) || (x && y))
    simp only [fullAdders, bitsToNat_cons, List.map_cons, List.length_cons, Nat.pow_succ', Nat.mul_assoc]
    omega

theorem bitsToNat_fullAdders_bits {n : Nat} (c : Bool) (v w : BitVec n) :
    bitsToNat (fullAdders c ((bits v).zip (bits w))).1 + 2 ^ n * (fullAdders c ((bits v).zip (bits w))).2.toNat =
      c.toNat + v.toNat + w.toNat := by
  have hlength : (bits v).length = (bits w).length := by rw [bits_length, bits_length]
  have hchain := bitsToNat_fullAdders c ((bits v).zip (bits w))
  rw [List.length_zip, List.map_fst_zip hlength.le, List.map_snd_zip hlength.ge, bits_length, bits_length,
    Nat.min_self] at hchain
  rw [← toInt_eq_toNat v, ← toInt_eq_toNat w]
  exact hchain

theorem map_not_bits {n : Nat} (v : BitVec n) : (bits v).map (fun y => !y) = bits (~~~v) := by
  rw [bits, bits, List.map_map]
  refine List.map_congr_left fun k hk => ?_
  simp [List.mem_range.mp hk]

/-- The chain's second input, `subtract XOR B[k]`, is the bits of B or of its complement. -/
theorem map_xor_bits (subtract : Bool) (b : Byte) :
    ((bits b).map fun y => subtract ^^ y) = bits (if subtract then ~~~b else b) := by
  cases subtract
  · simp
  · simpa using map_not_bits b

/-- The result bits and the discarded carry of `Compute(subtract)`, as a number (43_alu.md R72). -/
theorem bitsToNat_adderChain (subtract : Bool) (a b : Byte) :
    bitsToNat (adderChain subtract a b).1 + 256 * (adderChain subtract a b).2.toNat =
      subtract.toNat + a.toNat + (if subtract then ~~~b else b).toNat := by
  rw [adderChain, map_xor_bits]
  exact bitsToNat_fullAdders_bits subtract a _

/-- The carry above the result bits is lost modulo 256 (43_alu.md R72). -/
theorem aluCompute_eq (subtract : Bool) (a b : Byte) :
    aluCompute subtract a b = BitVec.ofNat 8 subtract.toNat + a + (if subtract then ~~~b else b) := by
  have hchain := bitsToNat_adderChain subtract a b
  apply BitVec.eq_of_toNat_eq
  rw [aluCompute, fromBits]
  simp only [BitVec.toNat_add, BitVec.toNat_ofNat]
  omega

/-- `Compute(false)` is addition modulo 256 (43_alu.md R73). -/
@[simp] theorem aluCompute_false (a b : Byte) : aluCompute false a b = a + b := by
  simp [aluCompute_eq]

/-- `Compute(true)` is subtraction modulo 256: `-B` is `NOT B + 1` (43_alu.md R74). -/
@[simp] theorem aluCompute_true (a b : Byte) : aluCompute true a b = a - b := by
  rw [aluCompute_eq, BitVec.sub_eq_add_neg, BitVec.neg_eq_not_add, BitVec.add_comm _ a, BitVec.add_assoc,
    BitVec.add_comm (~~~b)]
  rfl

end Sys2Proof.Machine
end

section
/-! PROOFS. The shared bus: what a producer drives, what every other signal leaves, and the order of two producers
(40_bus_register_fit.md R55 to R58). -/

namespace Sys2Proof.Machine

open Sys2Proof.Claims

/-! ## One signal -/

/-- A producer writes BUS, with the value of the width table, and nothing else (40_bus_register_fit.md R55, R58). -/
theorem applySignal_producer {σ : Signal} (hσ : σ.cls = .producer) (s : State) :
    applySignal σ s = { s with bus := drivenBy σ s } := by
  cases σ with
  | pcOut | irOut => simp [applySignal, drivenBy, setWidth_eq_zeros_append, State.addrField, addrOf]
  | ramOut | aOut | bOut | aluOut | aluSubOut => simp [applySignal, drivenBy]
  | _ => cases hσ

/-- Only a producer writes BUS (40_bus_register_fit.md R57). -/
theorem applySignal_bus_of_not_producer {σ : Signal} (hσ : σ.cls ≠ .producer) (s : State) :
    (applySignal σ s).bus = s.bus := by
  cases σ with
  | pcOut | irOut | ramOut | aOut | bOut | aluOut | aluSubOut => exact absurd rfl hσ
  | _ => rfl

/-- No producer drives a value that depends on BUS. -/
theorem drivenBy_withBus {σ : Signal} (hσ : σ.cls = .producer) (s : State) (v : Byte) :
    drivenBy σ { s with bus := v } = drivenBy σ s := by
  cases σ with
  | pcOut | irOut | ramOut | aOut | bOut | aluOut | aluSubOut => rfl
  | _ => cases hσ

/-! ## A list and a micro-step -/

/-- A list without a producer leaves BUS (40_bus_register_fit.md R57). -/
theorem dispatchList_bus_of_noneOf_producer {l : List Signal} (hl : noneOf .producer l = true) (s : State) :
    (dispatchList l s).bus = s.bus := by
  induction l generalizing s with
  | nil => rfl
  | cons σ l ih =>
    simp only [noneOf, List.all_cons, Bool.and_eq_true, decide_eq_true_eq] at hl
    obtain ⟨hσ, hrest⟩ := hl
    rw [dispatchList_cons, ih hrest, applySignal_bus_of_not_producer hσ]

theorem clockStep_bus_of_noneOf_producer {c : Config} {s : State} (hl : noneOf .producer (currentList c s) = true) :
    (clockStep c s).bus = s.bus := by
  rcases clockStep_cases c s with ⟨-, heq⟩ | ⟨-, heq⟩
  · rw [heq]
  · rw [heq]
    exact dispatchList_bus_of_noneOf_producer hl s

/-! ## The statements -/

/-- Settles O25: signal by signal, then along the list of the micro-step. -/
theorem onlyProducersWriteTheBus : Obligations.OnlyProducersWriteTheBus :=
  ⟨fun _ s hσ => applySignal_producer hσ s, fun _ s hσ => applySignal_bus_of_not_producer hσ s,
    fun c s hl => ⟨_, stepWith_eq c s, clockStep_bus_of_noneOf_producer hl⟩⟩

/-- Settles O27: the second producer's value does not depend on BUS, the one element the first has written. -/
theorem laterProducerReplacesEarlier : Obligations.LaterProducerReplacesEarlier := by
  intro p q l s hp hq
  have hreplace : applySignal q (applySignal p s) = applySignal q s := by
    rw [applySignal_producer hp, applySignal_producer hq, applySignal_producer hq, drivenBy_withBus hq]
  rw [dispatchList_cons, dispatchList_cons, dispatchList_cons, hreplace]

end Sys2Proof.Machine
end

section
/-! PROOFS. The program counter: the increment along its carry chain, the load and the drive
(41_program_counter.md R59 to R61). -/

namespace Sys2Proof.Machine

open Sys2Proof.Claims

/-! ## Lists of signals through `exec` -/

/-- Every signal answers a next state, so a list run through `exec` is the list dispatched. -/
@[simp] theorem execList_eq_dispatchList (l : List Signal) (s : State) :
    execList l s = .next (dispatchList l s) := by
  induction l generalizing s with
  | nil => rfl
  | cons σ l ih => simp only [execList, exec_toInstr, ih, dispatchList_cons]

/-! ## The carry chain of PC_INC -/

/-- Element `k` of a vector's bits is its bit `k`. -/
theorem getD_bits {n : Nat} (v : BitVec n) {k : Nat} (hk : k < n) : (bits v).getD k false = v.getLsbD k := by
  simp [bits, hk]

/-- One bit of the ripple, `PC[k] XOR c[k]`, and its carry, `PC[k] AND c[k]`; the branch that copies the rest once the
carry is false follows the same rule. -/
theorem rippleIncrement_cons (c b : Bool) (rest : List Bool) :
    rippleIncrement c (b :: rest) = (b ^^ c) :: rippleIncrement (b && c) rest := by
  cases c with
  | true => cases b <;> rfl
  | false => cases rest <;> simp [rippleIncrement]

/-- Bit `k` of the ripple, for carries that follow the rule. -/
theorem getD_rippleIncrement {bs : List Bool} {c : Nat → Bool}
    (hc : ∀ k < bs.length, c (k + 1) = (bs.getD k false && c k)) {k : Nat} (hk : k < bs.length) :
    (rippleIncrement (c 0) bs).getD k false = (bs.getD k false ^^ c k) := by
  induction bs generalizing c k with
  | nil => exact absurd hk (Nat.not_lt_zero k)
  | cons b rest ih =>
    have hfirst : c 1 = (b && c 0) := hc 0 (Nat.zero_lt_succ _)
    rw [rippleIncrement_cons, ← hfirst]
    cases k with
    | zero => rfl
    | succ k =>
      exact ih (c := fun j => c (j + 1)) (fun j hj => hc (j + 1) (Nat.succ_lt_succ hj)) (Nat.lt_of_succ_lt_succ hk)

/-- Bit `k` of the successor is `PC[k] XOR c[k]`. -/
theorem getLsbD_pcSuccessor {p : Nibble} {c : Nat → Bool} (hzero : c 0 = true)
    (hc : ∀ k < 4, c (k + 1) = (p.getLsbD k && c k)) {k : Nat} (hk : k < 4) :
    (pcSuccessor p).getLsbD k = (p.getLsbD k ^^ c k) := by
  have hchain : ∀ j < (bits p).length, c (j + 1) = ((bits p).getD j false && c j) := by
    rw [bits_length]
    intro j hj
    rw [getD_bits p hj, hc j hj]
  rw [pcSuccessor, getLsbD_fromBits, decide_eq_true hk, Bool.true_and, ← hzero,
    getD_rippleIncrement hchain (by rwa [bits_length]), getD_bits p hk]

/-! ## Repeated increments -/

/-- `n` dispatches of PC_INC add `n` to the counter. -/
theorem dispatchList_replicate_pcInc (n : Nat) (s : State) :
    dispatchList (List.replicate n .pcInc) s = { s with pc := s.pc + BitVec.ofNat 4 n } := by
  induction n generalizing s with
  | zero => simp
  | succ n ih =>
    have hadd : s.pc + 1 + BitVec.ofNat 4 n = s.pc + BitVec.ofNat 4 (n + 1) := by
      rw [BitVec.add_assoc, Nat.add_comm n, BitVec.ofNat_add]
      rfl
    rw [List.replicate_succ, dispatchList_cons, ih, applySignal, pcInc_eq, ← hadd]

/-! ## The statements -/

/-- Settles O10: the carry chain along the ripple, and sixteen increments add sixteen, which is zero modulo 16. -/
theorem pcIncIsBinarySuccessor : Obligations.PcIncIsBinarySuccessor := by
  intro s
  refine ⟨(exec_toInstr .pcInc s).trans (congrArg _ (pcInc_eq s)), BitVec.toNat_add s.pc 1,
    fun c hzero hc k hk => ?_, ?_⟩
  · rw [← pcSuccessor_eq]
    exact getLsbD_pcSuccessor hzero hc hk
  · rw [execList_eq_dispatchList, dispatchList_replicate_pcInc]
    simp

/-- Settles O11: the low four bits are the truncation PC_IN latches, and a list is dispatched signal by signal. -/
theorem pcInLoadsLowBusBits : Obligations.PcInLoadsLowBusBits := by
  intro s
  have hlow : s.bus.extractLsb' 0 4 = s.bus.setWidth 4 := (BitVec.setWidth_eq_extractLsb' (by decide)).symm
  rw [hlow]
  refine ⟨(exec_toInstr .pcIn s).trans (congrArg _ (pcIn_eq s)), ?_, ?_⟩
  · simp [applySignal] -- PC_INC adds to the value just latched
  · simp [applySignal] -- PC_IN replaces the incremented value

/-- Settles O12: PC_OUT is a producer, and the value it drives is the counter with zeros above it. -/
theorem pcOutDrivesZeroExtendedCounter : Obligations.PcOutDrivesZeroExtendedCounter := fun s =>
  (exec_toInstr .pcOut s).trans (congrArg _ (applySignal_producer rfl s))

end Sys2Proof.Machine
end

section
/-! PROOFS. The RAM: one cell written twice, the three control signals and the loader's `SetCell`
(42_ram.md R63 to R66). -/

namespace Sys2Proof.Machine

open Sys2Proof.Claims

/-! ## Two writes to one cell

These hold of every list of entries, canonical or not: a write first drops all entries of its cell. -/

theorem erase_erase_same (m : Memory) (k : Nat) : Memory.erase (Memory.erase m k) k = Memory.erase m k := by
  induction m with
  | nil => rfl
  | cons e rest ih =>
    obtain ⟨j, v⟩ := e
    by_cases h : j = k <;> simp [Memory.erase, h, ih]

theorem erase_insert_same (m : Memory) (k : Nat) (v : Byte) :
    Memory.erase (Memory.insert m k v) k = Memory.erase m k := by
  induction m with
  | nil => simp [Memory.insert, Memory.erase]
  | cons e rest ih =>
    obtain ⟨j, w⟩ := e
    by_cases hlt : k < j
    · simp [Memory.insert, Memory.erase, hlt]
    · by_cases h : j = k <;> simp [Memory.insert, Memory.erase, hlt, h, ih]

/-- Without its cell, a memory is as it was before the write. -/
theorem erase_write_same (m : Memory) (a : Nibble) (v : Byte) :
    Memory.erase (m.write a v) a.toNat = Memory.erase m a.toNat := by
  unfold Memory.write
  split_ifs
  · exact erase_erase_same m a.toNat
  · rw [erase_insert_same, erase_erase_same]

/-- The second of two writes to one cell wins, as data. -/
@[simp] theorem write_write_same (m : Memory) (a : Nibble) (v w : Byte) :
    (m.write a w).write a v = m.write a v := by
  rw [Memory.write, erase_write_same]
  rfl

/-! ## The control signals and `SetCell` -/

/-- MAR_IN latches BUS[3:0] (42_ram.md R63). -/
theorem applySignal_marIn (s : State) : applySignal .marIn s = { s with mar := s.bus.extractLsb' 0 4 } := by
  rw [← BitVec.setWidth_eq_extractLsb' (by decide)]
  exact marIn_eq s

/-- RAM_IN writes BUS to the selected cell (42_ram.md R64). -/
theorem applySignal_ramIn (s : State) : applySignal .ramIn s = { s with mem := s.mem.write s.mar s.bus } :=
  ramIn_eq s

/-- RAM_OUT drives the selected cell (42_ram.md R65). -/
theorem applySignal_ramOut (s : State) : applySignal .ramOut s = { s with bus := s.mem.read s.mar } :=
  applySignal_producer rfl s

/-- `SetCell` writes memory and nothing else (42_ram.md R66). -/
theorem setCell_eq (a : Nibble) (v : Byte) (s : State) : setCell a v s = { s with mem := s.mem.write a v } := rfl

/-- `SetCell` on the strings the loader supplies is `SetCell` on the values they spell (00_scope.md R6). -/
@[simp] theorem setCellText_toText (a : Nibble) (v : Byte) (s : State) :
    setCellText (toText a) (toText v) s = some (setCell a v s) := by
  simp [setCellText]

/-- MAR_IN then RAM_OUT drives the cell BUS[3:0] names (42_ram.md R65). -/
theorem dispatchList_marIn_ramOut (s : State) :
    dispatchList [.marIn, .ramOut] s =
      { s with mar := s.bus.extractLsb' 0 4, bus := s.mem.read (s.bus.extractLsb' 0 4) } := by
  rw [dispatchList_cons, applySignal_marIn, dispatchList_cons, applySignal_ramOut, dispatchList_nil]

/-- RAM_OUT after RAM_IN finds on the bus what it drives (42_ram.md R64). -/
theorem dispatchList_ramIn_ramOut (s : State) :
    dispatchList [.ramIn, .ramOut] s = { s with mem := s.mem.write s.mar s.bus } := by
  rw [dispatchList_cons, applySignal_ramIn, dispatchList_cons, applySignal_ramOut, dispatchList_nil,
    read_write_same]

/-! ## The statements -/

/-- Settles O16: read after write, and the second write drops every entry of the cell, the first write's too. -/
theorem setCellWritesOneCell : Obligations.SetCellWritesOneCell := by
  intro s a v w
  refine ⟨s.mem.write a v, setCell_eq a v s, read_write_same .., fun c hc => read_write_other _ v hc, ?_,
    setCellText_toText a v s⟩
  simp only [setCell_eq, write_write_same]

/-- Settles O13: the new MAR selects the cell for the signals after MAR_IN, the old one for those before it. -/
theorem marInSelectsTheCell : Obligations.MarInSelectsTheCell := by
  intro s
  refine ⟨(exec_toInstr .marIn s).trans (congrArg _ (applySignal_marIn s)), ?_,
    ⟨s.mem.write (s.bus.extractLsb' 0 4) s.bus, ?_, read_write_same .., fun a ha => read_write_other _ _ ha⟩, ?_⟩
  · rw [execList_eq_dispatchList, dispatchList_marIn_ramOut]
  · simp only [execList_eq_dispatchList, dispatchList_cons, dispatchList_nil, applySignal_marIn, applySignal_ramIn]
  · simp only [execList_eq_dispatchList, dispatchList_cons, dispatchList_nil, applySignal_marIn, applySignal_ramOut]

/-- Settles O14: RAM_IN is one write of the memory, so reads obey read after write. -/
theorem ramInWritesTheSelectedCell : Obligations.RamInWritesTheSelectedCell := by
  intro s
  refine ⟨s.mem.write s.mar s.bus, (exec_toInstr .ramIn s).trans (congrArg _ (applySignal_ramIn s)),
    read_write_same .., fun a ha => read_write_other _ _ ha, ?_⟩
  rw [execList_eq_dispatchList, dispatchList_ramIn_ramOut]

/-- Settles O15: the cell read is the one `SetCell` wrote, since `SetCell` leaves BUS, which MAR_IN latches. -/
theorem ramOutDrivesTheSelectedCell : Obligations.RamOutDrivesTheSelectedCell := by
  refine ⟨fun s => (exec_toInstr .ramOut s).trans (congrArg _ (applySignal_ramOut s)), ?_⟩
  rintro s addr val rfl
  refine ⟨_, execList_eq_dispatchList _ _, ?_⟩
  rw [dispatchList_marIn_ramOut, setCell_eq, read_write_same]

end Sys2Proof.Machine
end

section
/-! PROOFS. The ALU: its registers at the bus, and `Compute(subtract)` as full adders, as addition and as subtraction
(43_alu.md R68 to R74). -/

namespace Sys2Proof.Machine

open Sys2Proof.Claims

/-! ## A producer through `exec` -/

/-- The next state is the state with the driven value on the bus (40_bus_register_fit.md R55, R58). -/
theorem exec_producer {σ : Signal} (hσ : σ.cls = .producer) (s : State) :
    exec σ.toInstr s = .next { s with bus := drivenBy σ s } := by
  rw [exec_toInstr, applySignal_producer hσ]

/-! ## The carries of the full adders -/

/-- The result bits and the last carry of the full adders, for carries that follow the rule. -/
theorem fullAdders_map_range {n : Nat} {x y c : Nat → Bool}
    (hc : ∀ k < n, c (k + 1) = ((c k && x k) || (c k && y k) || (x k && y k))) :
    fullAdders (c 0) ((List.range n).map fun k => (x k, y k)) =
      ((List.range n).map fun k => (x k ^^ y k) ^^ c k, c n) := by
  induction n generalizing x y c with
  | zero => rfl
  | succ n ih =>
    have hfirst : c 1 = ((c 0 && x 0) || (c 0 && y 0) || (x 0 && y 0)) := hc 0 (Nat.zero_lt_succ n)
    have hrest := ih (x := fun k => x (k + 1)) (y := fun k => y (k + 1)) (c := fun k => c (k + 1))
      fun k hk => hc (k + 1) (Nat.succ_lt_succ hk)
    simp only [List.range_succ_eq_map, List.map_cons, List.map_map, Function.comp_def, Nat.succ_eq_add_one, fullAdders,
      ← hfirst]
    rw [hrest]

/-- The two inputs of each full adder: A's bit and `b'[k] = subtract XOR B[k]`. -/
theorem zip_bits_map_bits (subtract : Bool) (a b : Byte) :
    (bits a).zip ((bits b).map fun y => subtract ^^ y) =
      (List.range 8).map fun k => (a.getLsbD k, subtract ^^ b.getLsbD k) := by
  rw [bits, bits, List.map_map, List.zip_map']
  rfl

/-- `Compute(subtract)`'s chain along the carries of the rule (43_alu.md R72). -/
theorem adderChain_eq {subtract : Bool} {a b : Byte} {c : Nat → Bool} (hzero : c 0 = subtract)
    (hc : ∀ k < 8, c (k + 1) = ((c k && a.getLsbD k) || (c k && (subtract ^^ b.getLsbD k)) ||
      (a.getLsbD k && (subtract ^^ b.getLsbD k)))) :
    adderChain subtract a b =
      ((List.range 8).map fun k => (a.getLsbD k ^^ (subtract ^^ b.getLsbD k)) ^^ c k, c 8) := by
  have hchain := fullAdders_map_range hc
  rwa [hzero, ← zip_bits_map_bits] at hchain

/-! ## The dropped carry -/

theorem length_fullAdders (c : Bool) (l : List (Bool × Bool)) : (fullAdders c l).1.length = l.length := by
  induction l generalizing c with
  | nil => rfl
  | cons p rest ih =>
    obtain ⟨x, y⟩ := p
    simp [fullAdders, ih]

theorem bitsToNat_adderChain_lt (subtract : Bool) (a b : Byte) : bitsToNat (adderChain subtract a b).1 < 256 := by
  have hlength : (adderChain subtract a b).1.length = 8 := by
    rw [adderChain, length_fullAdders, zip_bits_map_bits, List.length_map, List.length_range]
  simpa [hlength] using bitsToNat_lt (adderChain subtract a b).1

/-- In a subtraction the carry that is dropped is the absence of a borrow: `A + NOT B + 1 = 256 + A - B`
(43_alu.md R74). -/
theorem adderChain_true_carry (a b : Byte) : (adderChain true a b).2 = decide (b.toNat ≤ a.toNat) := by
  have hsum := bitsToNat_adderChain true a b
  have hlt := bitsToNat_adderChain_lt true a b
  simp only [Bool.toNat_true, if_true, BitVec.toNat_not] at hsum
  cases hcarry : (adderChain true a b).2 with
  | false =>
    rw [hcarry, Bool.toNat_false] at hsum
    exact (decide_eq_false (by omega)).symm
  | true =>
    rw [hcarry, Bool.toNat_true] at hsum
    exact (decide_eq_true (by omega)).symm

/-! ## The statements -/

/-- Settles O17: a register of eight bits latches the whole bus; in the list A_IN finds the sum of the old A there. -/
theorem aluInputsLatchTheBus : Obligations.AluInputsLatchTheBus := by
  intro s
  refine ⟨(exec_toInstr .aIn s).trans (congrArg _ (aIn_eq s)),
    (exec_toInstr .bIn s).trans (congrArg _ (bIn_eq s)), ?_⟩
  rw [execList_eq_dispatchList, dispatchList_cons, dispatchList_cons, dispatchList_nil,
    applySignal_producer (σ := .aluOut) rfl]
  exact congrArg _ (aIn_eq _)

/-- Settles O18: both signals are producers, and a register of eight bits fills the bus. -/
theorem aluInputsDriveTheBus : Obligations.AluInputsDriveTheBus := fun s =>
  ⟨exec_producer (σ := .aOut) rfl s, exec_producer (σ := .bOut) rfl s⟩

/-- Settles O19: the result's bits are the chain's, which follow the carries of the rule. -/
theorem computeIsTheFullAdderChain : Obligations.ComputeIsTheFullAdderChain := by
  intro subtract a b c hzero hc
  have hchain := adderChain_eq hzero hc
  refine ⟨fun k hk => ?_, by rw [hchain]⟩
  rw [aluCompute, hchain, getLsbD_fromBits]
  simp [hk]

/-- Settles O20: ALU_OUT is a producer, and addition of bytes is addition modulo 256. -/
theorem aluOutAddsModulo256 : Obligations.AluOutAddsModulo256 := fun s =>
  ⟨s.a + s.b, exec_producer (σ := .aluOut) rfl s, rfl, BitVec.toNat_add s.a s.b⟩

/-- Settles O21: ALU_SUB_OUT is a producer, `255 - B` is B's complement, and the dropped carry is no borrow. -/
theorem aluSubOutSubtractsModulo256 : Obligations.AluSubOutSubtractsModulo256 := by
  intro s
  refine ⟨s.a - s.b, exec_producer (σ := .aluSubOut) rfl s, rfl, ?_, adderChain_true_carry s.a s.b⟩
  have hb : s.b.toNat < 256 := s.b.isLt
  rw [BitVec.toNat_sub]
  omega

end Sys2Proof.Machine
end

section
/-! PROOFS. The consumers at the bus, and the signals of the instruction register, the Clock and the Output register
(44_sequencer.md R77, R79, R82, R83, R85). -/

namespace Sys2Proof.Machine

open Sys2Proof.Claims

/-! ## A consumer at the bus -/

/-- A consumer latches BUS as it stands when the signal is dispatched (40_bus_register_fit.md R54, R58). -/
theorem applySignal_consumer {σ : Signal} (hσ : σ.cls = .consumer) (s : State) :
    applySignal σ s = latchedBy σ s.bus s := by
  cases σ with
  | pcIn | marIn => simp [applySignal, latchedBy, BitVec.setWidth_eq_extractLsb']
  | ramIn | irIn | aIn | bIn | outIn => simp [applySignal, latchedBy]
  | _ => cases hσ

theorem exec_consumer {σ : Signal} (hσ : σ.cls = .consumer) (s : State) :
    exec σ.toInstr s = .next (latchedBy σ s.bus s) := by
  rw [exec_toInstr, applySignal_consumer hσ]

theorem dispatchList_producer_consumer {p k : Signal} (hp : p.cls = .producer) (hk : k.cls = .consumer) (s : State) :
    dispatchList [p, k] s = latchedBy k (drivenBy p s) { s with bus := drivenBy p s } := by
  rw [dispatchList_cons, applySignal_producer hp, dispatchList_cons, applySignal_consumer hk, dispatchList_nil]

theorem dispatchList_consumer_producer {p k : Signal} (hp : p.cls = .producer) (hk : k.cls = .consumer) (s : State) :
    dispatchList [k, p] s = { latchedBy k s.bus s with bus := drivenBy p (latchedBy k s.bus s) } := by
  rw [dispatchList_cons, applySignal_consumer hk, dispatchList_cons, applySignal_producer hp, dispatchList_nil]

/-! ## The halt flag along a list -/

/-- No signal reads the flag, so each acts alike however it stands. -/
theorem applySignal_withHalt (σ : Signal) (s : State) :
    applySignal σ { s with halt := true } = { applySignal σ s with halt := true } := by
  cases σ <;> rfl

theorem dispatchList_withHalt (l : List Signal) (s : State) :
    dispatchList l { s with halt := true } = { dispatchList l s with halt := true } := by
  induction l generalizing s with
  | nil => rfl
  | cons σ l ih => rw [dispatchList_cons, applySignal_withHalt, ih, dispatchList_cons]

/-! ## The statements -/

/-- Settles O26: each signal of the pair acts on the state the one before it left. -/
theorem producerBeforeConsumerDelivers : Obligations.ProducerBeforeConsumerDelivers := fun _ _ s hp hk =>
  ⟨dispatchList_producer_consumer hp hk s, dispatchList_consumer_producer hp hk s⟩

/-- Settles O22: IR_IN is a consumer, IR_OUT a producer of the address field, and the list is the pair of the two. -/
theorem instructionRegisterSignals : Obligations.InstructionRegisterSignals := by
  intro s
  refine ⟨exec_consumer (σ := .irIn) rfl s, exec_producer (σ := .irOut) rfl s, ?_⟩
  rw [execList_eq_dispatchList, dispatchList_consumer_producer (p := .irOut) (k := .irIn) rfl rfl]
  rfl

/-- Settles O23: OUT_IN is a consumer, and the second dispatch finds the same bus and the first one's event. -/
theorem outInLatchesAndEmits : Obligations.OutInLatchesAndEmits := by
  intro s
  refine ⟨exec_consumer (σ := .outIn) rfl s, s.bus.isLt, ?_⟩
  rw [execList_eq_dispatchList]
  simp [applySignal]

/-- Settles O24: no signal reads the flag, so the rest of the list acts as without HALT; and a micro-step that leaves
the flag set leaves a machine that stands. -/
theorem haltSetsTheFlagAndEndsTheRun : Obligations.HaltSetsTheFlagAndEndsTheRun := by
  refine ⟨exec_toInstr .halt, dispatchList_withHalt, fun c s hrun hmem => ?_⟩
  have hhalt : (clockStep c s).halt = true := (clockStep_halt c s).mpr (.inr hmem)
  refine ⟨clockStep c s, stepWith_eq c s, hhalt, ?_, fun n => ?_⟩
  · rw [clockStep_running hrun]
    rfl
  · rw [runWith_eq, clockSteps_halted hhalt]

end Sys2Proof.Machine
end

section
/-! PROOFS. The micro-step, the clocking rule and the step counter under any matrix (44_sequencer.md R78, R81,
R84). -/

namespace Sys2Proof.Machine

/-! ## The step counter -/

theorem clockStep_stepCounter_toNat {c : Config} (hc : c.wf = true) {s : State} (hrun : s.halt = false) :
    (clockStep c s).stepCounter.toNat = (s.stepCounter.toNat + 1) % c.steps := by
  simp only [Config.wf, Bool.and_eq_true, decide_eq_true_eq] at hc
  obtain ⟨hlow, hhigh⟩ := hc
  rw [clockStep_running hrun]
  exact nextStepIndex_toNat (by omega) hhigh s.stepCounter

/-- Under a matrix without HALT every number of clock steps leaves the machine running, its counter advanced by that
number modulo S. -/
theorem clockSteps_without_halt {c : Config} (hc : c.wf = true) (hmatrix : ∀ op k, Signal.halt ∉ c.matrix op k)
    (n : Nat) {s : State} (hrange : s.stepCounter.toNat < c.steps) (hrun : s.halt = false) :
    (clockSteps c n s).halt = false ∧
      (clockSteps c n s).stepCounter.toNat = (s.stepCounter.toNat + n) % c.steps := by
  induction n generalizing s with
  | zero => exact ⟨hrun, (Nat.mod_eq_of_lt hrange).symm⟩
  | succ n ih =>
    have hcounter := clockStep_stepCounter_toNat hc hrun
    have hrun' : (clockStep c s).halt = false := by
      rw [← Bool.not_eq_true, clockStep_halt]
      simp [hrun, currentList, hmatrix]
    obtain ⟨hhalt, hk⟩ := ih (hcounter ▸ Nat.mod_lt _ (by omega)) hrun'
    refine ⟨hhalt, ?_⟩
    rw [clockSteps_succ, hk, hcounter, Nat.mod_add_mod, Nat.add_right_comm, Nat.add_assoc]

/-! ## The statements -/

/-- Settles O28: every signal answers a next state, so the list run through `exec` is the list dispatched. -/
theorem stepRunsTheSelectedSignals : Obligations.StepRunsTheSelectedSignals := by
  refine ⟨fun c s hrun => ?_, fun _ => rfl⟩
  rw [execList_eq_dispatchList, stepWith_eq, clockStep_running hrun]
  rfl

/-- Settles O29: one step advances the counter by one modulo S, so S of them bring it back. -/
theorem stepCounterAdvancesModuloS : Obligations.StepCounterAdvancesModuloS := by
  intro c s hc hrange hrun
  refine ⟨⟨_, stepWith_eq c s, clockStep_stepCounter_toNat hc hrun⟩, fun hmatrix => ?_⟩
  obtain ⟨hhalt, hcounter⟩ := clockSteps_without_halt hc hmatrix c.steps hrange hrun
  rw [Nat.add_mod_right, Nat.mod_eq_of_lt hrange] at hcounter
  exact ⟨_, runWith_eq c c.steps s, BitVec.eq_of_toNat_eq hcounter, hhalt⟩

/-- Settles O30: a halted machine stands at every clock step, and an enabled edge is the clock step. -/
theorem haltedMachineStands : Obligations.HaltedMachineStands := by
  refine fun c s => ⟨fun hhalt n => ?_, fun p hrst hrun => ?_⟩
  · rw [runWith_eq, clockSteps_halted hhalt]
  · simp [stepWith_eq, edge, hrst, hrun]

end Sys2Proof.Machine
end

section
/-! PROOFS. The fetch cycle at every step count (44_sequencer.md R80), and the instruction word it leaves in IR, run to
the end of its cycle (45_instructions.md R87). -/

namespace Sys2Proof.Machine

open Sys2Proof.Claims

/-! ## The fetch cycle at every step count -/

/-- Before the last step of the shortest cycle the step count makes no difference. -/
theorem clockStep_referenceWith {S : Nat} (hS : 5 ≤ S) {s : State} (hk : s.stepCounter.toNat < 4) :
    clockStep (referenceWith S) s = clockStep reference s := by
  have hnext : nextStepIndex S s.stepCounter = nextStepIndex 5 s.stepCounter := by
    rw [nextStepIndex, nextStepIndex, Nat.mod_eq_of_lt (by omega), Nat.mod_eq_of_lt (by omega)]
  have hmicro : microStep (referenceWith S) s = microStep reference s :=
    congrArg (fun k => { dispatchList (currentList reference s) s with stepCounter := k }) hnext
  rw [clockStep, clockStep, hmicro]

theorem clockSteps_two_referenceWith {S : Nat} (hS : 5 ≤ S) {s : State} (h : s.atBoundary) :
    clockSteps (referenceWith S) 2 s = fetched s := by
  have hk : s.stepCounter.toNat < 4 := by simp [h.1]
  have hk' : (clockStep reference s).stepCounter.toNat < 4 := by simp [clockStep_of_atBoundary h]
  rw [← clockSteps_two_of_atBoundary h]
  simp only [clockSteps_succ, clockSteps_zero]
  rw [clockStep_referenceWith hS hk, clockStep_referenceWith hS hk']

/-! ## The execute steps of a fetched word -/

/-- The meaning of a row of the opcode map is the execute steps of its word. -/
theorem exec_build {r : CellRow} (hr : r ∈ cellRows) (low : Nibble) (s : State) :
    exec (r.build low) s = .next (executeSteps reference (cellWord (rowOpcode r) low) s) := by
  fin_cases hr <;> rfl

/-- The instruction a word decodes to is run by the execute steps of that word. -/
theorem exec_of_decodeCell {w : Byte} {i : Instr} (h : decodeCell w = .ok i) (s : State) :
    exec i s = .next (executeSteps reference w s) := by
  obtain ⟨r, hr, hop⟩ := exists_row_of_opcode (opcodeOf w)
  obtain rfl : r.build (addrOf w) = i := by simpa [decodeCell_of_row hr hop.symm] using h
  rw [exec_build hr, hop, cellWord_fields]

/-- On the state the fetch left, the execute steps are the rest of the cycle. -/
theorem executeSteps_fetched (c : Config) {s : State} (hrun : s.halt = false) :
    executeSteps c (s.mem.read s.pc) (fetched s) = clockSteps c (c.steps - 2) (fetched s) := by
  have hrunning : (fetched s).isRunning = true := by simp [State.isRunning, fetched, hrun]
  rw [executeSteps, if_pos hrunning]
  rfl

/-! ## `withFetchWord` -/

/-- The boundary state that `withFetchWord` takes through the fetch: the word in the cell PC names, the machine
running. -/
def withWordAtBoundary (s : State) (w : Byte) : State :=
  { setCell s.pc w s with stepCounter := 0, halt := false }

theorem withWordAtBoundary_atBoundary (s : State) (w : Byte) : (withWordAtBoundary s w).atBoundary := ⟨rfl, rfl⟩

@[simp] theorem read_withWordAtBoundary (s : State) (w : Byte) :
    (withWordAtBoundary s w).mem.read (withWordAtBoundary s w).pc = w :=
  read_write_same s.mem s.pc w

theorem withFetchWord_eq (s : State) (w : Nat) :
    s.withFetchWord 8 w = fetched (withWordAtBoundary s (BitVec.ofNat 8 w)) :=
  clockSteps_two_of_atBoundary (withWordAtBoundary_atBoundary s _)

/-- After `withFetchWord` the rest of the cycle is the execute steps of the word. -/
theorem executeSteps_withFetchWord (s : State) (w : Nat) :
    executeSteps reference (BitVec.ofNat 8 w) (s.withFetchWord 8 w) =
      clockSteps reference 3 (s.withFetchWord 8 w) := by
  have hcycle := executeSteps_fetched reference (withWordAtBoundary_atBoundary s (BitVec.ofNat 8 w)).2
  rw [read_withWordAtBoundary] at hcycle
  rw [withFetchWord_eq]
  exact hcycle

/-- Eight bits of a table word are decoded as a memory cell (log entry 15). -/
theorem decodeCell_of_decodeTableWord {w : Nat} {i : Instr} (h : decodeTableWord 8 w = some i) :
    decodeCell (BitVec.ofNat 8 w) = .ok i := by
  obtain ⟨j, hj, -⟩ := exists_decodeCell (BitVec.ofNat 8 w)
  obtain rfl : j = i := by simpa [decodeTableWord, decode, hj, Except.toOption] using h
  exact hj

/-! ## The statements -/

/-- Settles O36: the two fetch steps come before the last step of every cycle. -/
theorem fetchCycleLoadsTheWord : Obligations.FetchCycleLoadsTheWord := by
  intro S s hlow _ hk hrun
  rw [runWith_eq, clockSteps_two_referenceWith hlow ⟨hk, hrun⟩]

/-- Settles O38: `withFetchWord` is the fetch from a boundary at which PC names the word, and the three clock steps
after it are the execute steps that are the instruction's meaning. -/
theorem fetchWordIsRunNext : Obligations.FetchWordIsRunNext := by
  intro s w i hdecode
  have hexec := exec_of_decodeCell (decodeCell_of_decodeTableWord hdecode) (s.withFetchWord 8 w)
  rw [executeSteps_withFetchWord, ← runWith_eq] at hexec
  refine ⟨_, rfl, ?_⟩
  rw [withFetchWord_eq] at hexec ⊢
  refine ⟨read_withWordAtBoundary s _, rfl, rfl, rfl, rfl, rfl, rfl, rfl, ?_, hexec.symm⟩
  rw [step_eq, clockStep_running rfl]

end Sys2Proof.Machine
end

section
/-! PROOFS. The instructions under the reference matrix: micro-steps of one row as one list of signals, the execute
steps of each word at every step count, and the cycle from boundary to boundary (45_instructions.md R87 to R93). -/

namespace Sys2Proof.Machine

open Sys2Proof.Claims

/-! ## Several micro-steps of one row, under any matrix -/

/-- The signals of the `n` micro-steps from step `k` of a row, in the order of their dispatch (44_sequencer.md R78). -/
def rowSignals (c : Config) (op : Nibble) (k n : Nat) : List Signal :=
  (List.range' k n).flatMap fun j => c.matrix op (BitVec.ofNat 3 j)

theorem rowSignals_succ (c : Config) (op : Nibble) (k n : Nat) :
    rowSignals c op k (n + 1) = rowSignals c op k n ++ c.matrix op (BitVec.ofNat 3 (k + n)) := by
  simp [rowSignals, List.range'_1_concat]

theorem dispatchList_append (l l' : List Signal) (s : State) :
    dispatchList (l ++ l') s = dispatchList l' (dispatchList l s) := by
  induction l generalizing s with
  | nil => rfl
  | cons σ l ih => exact ih (applySignal σ s)

theorem applySignal_withStepCounter (σ : Signal) (k : StepIndex) (s : State) :
    applySignal σ { s with stepCounter := k } = { applySignal σ s with stepCounter := k } := by
  cases σ <;> rfl

/-- No signal reads the step counter, so a list acts alike at every step. -/
theorem dispatchList_withStepCounter (l : List Signal) (k : StepIndex) (s : State) :
    dispatchList l { s with stepCounter := k } = { dispatchList l s with stepCounter := k } := by
  induction l generalizing s with
  | nil => rfl
  | cons σ l ih => rw [dispatchList_cons, applySignal_withStepCounter, ih, dispatchList_cons]

/-- A list without IR_IN leaves IR (10_state.md R16). -/
theorem dispatchList_ir_of_not_mem {l : List Signal} (hl : Signal.irIn ∉ l) (s : State) :
    (dispatchList l s).ir = s.ir := by
  induction l generalizing s with
  | nil => rfl
  | cons σ l ih =>
    rw [List.mem_cons, not_or] at hl
    obtain ⟨hσ, hrest⟩ := hl
    rw [dispatchList_cons, ih hrest, applySignal_ir, if_neg (Ne.symm hσ)]

/-- A micro-step at step `k` dispatches the row's list for it and counts on (44_sequencer.md R78, R84). -/
theorem clockStep_withStepCounter {c : Config} (hsteps : c.steps ≤ 8) {s : State} (hrun : s.halt = false) {k : Nat}
    (hk : k < c.steps) :
    clockStep c { s with stepCounter := BitVec.ofNat 3 k } =
      { dispatchList (c.matrix s.opcode (BitVec.ofNat 3 k)) s with
        stepCounter := BitVec.ofNat 3 ((k + 1) % c.steps) } := by
  have hindex : (BitVec.ofNat 3 k).toNat = k := Nat.mod_eq_of_lt (Nat.lt_of_lt_of_le hk hsteps)
  have hlist : currentList c { s with stepCounter := BitVec.ofNat 3 k } = c.matrix s.opcode (BitVec.ofNat 3 k) := rfl
  rw [clockStep_running (by exact hrun), microStep, hlist, dispatchList_withStepCounter, nextStepIndex, hindex]

/-- While neither IR_IN nor HALT is dispatched the sequencer stays in its row, and the micro-steps up to the end of
the cycle dispatch the signals of their lists one after another. -/
theorem clockSteps_withStepCounter {c : Config} (hsteps : c.steps ≤ 8) {s : State} (hrun : s.halt = false) {k n : Nat}
    (hk : k < c.steps) (hn : k + n ≤ c.steps) (hir : Signal.irIn ∉ rowSignals c s.opcode k n)
    (hhalt : Signal.halt ∉ rowSignals c s.opcode k n) :
    clockSteps c n { s with stepCounter := BitVec.ofNat 3 k } =
      { dispatchList (rowSignals c s.opcode k n) s with stepCounter := BitVec.ofNat 3 ((k + n) % c.steps) } := by
  induction n with
  | zero => simp [rowSignals, Nat.mod_eq_of_lt hk]
  | succ n ih =>
    rw [rowSignals_succ, List.mem_append, not_or] at hir hhalt
    obtain ⟨hir, -⟩ := hir
    obtain ⟨hhalt, -⟩ := hhalt
    have hrun' : (dispatchList (rowSignals c s.opcode k n) s).halt = false := by
      rw [← Bool.not_eq_true, dispatchList_halt]
      simp [hrun, hhalt]
    have hop : (dispatchList (rowSignals c s.opcode k n) s).opcode = s.opcode :=
      congrArg opcodeOf (dispatchList_ir_of_not_mem hir s)
    rw [clockSteps_add, ih (by omega) hir hhalt, Nat.mod_eq_of_lt (by omega), clockSteps_succ, clockSteps_zero,
      clockStep_withStepCounter hsteps hrun' (by omega), hop, rowSignals_succ, dispatchList_append, Nat.add_assoc]

/-- At the end of the cycle the counter is back at zero (44_sequencer.md R84). -/
theorem clockSteps_endOfCycle {c : Config} (hsteps : c.steps ≤ 8) {s : State} (hrun : s.halt = false) {k n : Nat}
    (hk : k < c.steps) (hn : k + n = c.steps) {l : List Signal} (hrow : rowSignals c s.opcode k n = l)
    (hir : Signal.irIn ∉ l) (hhalt : Signal.halt ∉ l) :
    clockSteps c n { s with stepCounter := BitVec.ofNat 3 k } = { dispatchList l s with stepCounter := 0 } := by
  subst hrow
  rw [clockSteps_withStepCounter hsteps hrun hk hn.le hir hhalt, hn, Nat.mod_self]
  rfl

/-! ## The execute steps of a word, at every step count -/

/-- From step 2 to the end of the cycle a row of M_ref dispatches its listed execute steps and nothing more, however
many empty steps pad the cycle (30_encoding.md R50). -/
theorem rowSignals_referenceWith {S : Nat} (hlow : 5 ≤ S) (hhigh : S ≤ 8) (op : Nibble) :
    rowSignals (referenceWith S) op 2 (S - 2) = (referenceExecute op).flatten := by
  interval_cases S <;> revert op <;> decide

/-- No execute step of M_ref loads IR (30_encoding.md R50). -/
theorem irIn_not_mem_referenceExecute (op : Nibble) : Signal.irIn ∉ (referenceExecute op).flatten := by
  revert op
  decide

section
variable {S : Nat} {w : Byte} {s : State}

theorem executeSteps_running {c : Config} (hrun : s.halt = false) :
    executeSteps c w s = clockSteps c (c.steps - 2) { s with ir := w, stepCounter := 2 } :=
  if_pos (by simp [State.isRunning, hrun])

/-- The execute steps of a row without HALT are its signals dispatched one after another, and they end the cycle. -/
theorem executeSteps_of_row (hlow : 5 ≤ S) (hhigh : S ≤ 8) (hrun : s.halt = false) {l : List Signal}
    (hrow : (referenceExecute (opcodeOf w)).flatten = l) (hl : Signal.halt ∉ l) :
    executeSteps (referenceWith S) w s = { dispatchList l { s with ir := w } with stepCounter := 0 } := by
  have hir : Signal.irIn ∉ l := hrow ▸ irIn_not_mem_referenceExecute (opcodeOf w)
  rw [executeSteps_running hrun]
  exact clockSteps_endOfCycle hhigh (s := { s with ir := w }) hrun (show 2 < S by omega)
    (show 2 + (S - 2) = S by omega) ((rowSignals_referenceWith hlow hhigh _).trans hrow) hir hl

/-- LDA (45_instructions.md R88): IR_OUT and MAR_IN select the operand, RAM_OUT and A_IN load it. -/
theorem executeSteps_lda (hlow : 5 ≤ S) (hhigh : S ≤ 8) (hrun : s.halt = false) (hop : opcodeOf w = 1) :
    executeSteps (referenceWith S) w s =
      { s with
        a := s.mem.read (addrOf w), mar := addrOf w, bus := s.mem.read (addrOf w), ir := w, stepCounter := 0 } := by
  have hrow : (referenceExecute (opcodeOf w)).flatten = [.irOut, .marIn, .ramOut, .aIn] := by rw [hop]; rfl
  rw [executeSteps_of_row hlow hhigh hrun hrow (by decide)]
  simp [applySignal, State.addrField]

/-- ADD (45_instructions.md R89): after the operand is selected, B takes it and A the sum. -/
theorem executeSteps_add (hlow : 5 ≤ S) (hhigh : S ≤ 8) (hrun : s.halt = false) (hop : opcodeOf w = 2) :
    executeSteps (referenceWith S) w s =
      { s with
        b := s.mem.read (addrOf w), a := s.a + s.mem.read (addrOf w), mar := addrOf w,
        bus := s.a + s.mem.read (addrOf w), ir := w, stepCounter := 0 } := by
  have hrow : (referenceExecute (opcodeOf w)).flatten = [.irOut, .marIn, .ramOut, .bIn, .aluOut, .aIn] := by
    rw [hop]; rfl
  rw [executeSteps_of_row hlow hhigh hrun hrow (by decide)]
  simp [applySignal, State.addrField]

/-- OUT (45_instructions.md R90): A is driven, latched by OUT and emitted. -/
theorem executeSteps_out (hlow : 5 ≤ S) (hhigh : S ≤ 8) (hrun : s.halt = false) (hop : opcodeOf w = 14) :
    executeSteps (referenceWith S) w s =
      { s with out := s.a, log := s.log ++ [s.a.toNat], bus := s.a, ir := w, stepCounter := 0 } := by
  have hrow : (referenceExecute (opcodeOf w)).flatten = [.aOut, .outIn] := by rw [hop]; rfl
  rw [executeSteps_of_row hlow hhigh hrun hrow (by decide)]
  simp [applySignal]

/-- A word whose row has no execute steps runs to the end of its cycle with no effect (45_instructions.md R92). -/
theorem executeSteps_unmapped (hlow : 5 ≤ S) (hhigh : S ≤ 8) (hrun : s.halt = false)
    (hop : referenceExecute (opcodeOf w) = []) :
    executeSteps (referenceWith S) w s = { s with ir := w, stepCounter := 0 } :=
  executeSteps_of_row hlow hhigh hrun (congrArg List.flatten hop) List.not_mem_nil

/-- HLT (45_instructions.md R91): step 2 sets the flag, and the steps left of the cycle are not executed. -/
theorem executeSteps_hlt (hlow : 5 ≤ S) (hrun : s.halt = false) (hop : opcodeOf w = 15) :
    executeSteps (referenceWith S) w s = { s with halt := true, ir := w, stepCounter := 3 } := by
  have hstop : clockStep (referenceWith S) { s with ir := w, stepCounter := 2 } =
      { s with halt := true, ir := w, stepCounter := 3 } := by
    rw [clockStep_referenceWith hlow (by simp)]
    exact ReferenceStep.clockStep_eq (.hltStop hop rfl) hrun
  have hsteps : (referenceWith S).steps - 2 = S - 3 + 1 := show S - 2 = S - 3 + 1 by omega
  rw [executeSteps_running hrun, hsteps, clockSteps_succ, hstop, clockSteps_halted rfl]

/-! ## The cycle from a boundary -/

/-- The cycle is the fetch and then the execute steps of the fetched word (45_instructions.md R87). -/
theorem clockSteps_cycle (hlow : 5 ≤ S) (h : s.atBoundary) :
    clockSteps (referenceWith S) S s = executeSteps (referenceWith S) (s.mem.read s.pc) (fetched s) := by
  have hsplit := clockSteps_add (referenceWith S) 2 (S - 2) s
  rw [Nat.add_sub_cancel' (by omega), clockSteps_two_referenceWith hlow h] at hsplit
  rw [hsplit, executeSteps_fetched _ h.2]
  rfl

/-- The execute steps of the fetched word lead to the state R93 names, opcode by opcode. -/
theorem executeSteps_fetched_eq_macroStep (hlow : 5 ≤ S) (hhigh : S ≤ 8) (h : s.atBoundary) :
    executeSteps (referenceWith S) (s.mem.read s.pc) (fetched s) = macroStep s := by
  obtain ⟨hk, hrun⟩ := h
  have hrun' : (fetched s).halt = false := hrun
  simp only [macroStep]
  split
  next hop =>
    rw [executeSteps_lda hlow hhigh hrun' (BitVec.eq_of_toNat_eq hop)]
    simp [fetched, hk, addrOf]
  next hop =>
    rw [executeSteps_add hlow hhigh hrun' (BitVec.eq_of_toNat_eq hop)]
    simp [fetched, hk, addrOf]
  next hop =>
    rw [executeSteps_out hlow hhigh hrun' (BitVec.eq_of_toNat_eq hop)]
    simp [fetched, hk]
  next hop =>
    rw [executeSteps_hlt hlow hrun' (BitVec.eq_of_toNat_eq hop)]
    simp [fetched]
  next h1 h2 h14 h15 =>
    have hne {op : Nibble} (h : (opcodeOf (s.mem.read s.pc)).toNat ≠ op.toNat) : opcodeOf (s.mem.read s.pc) ≠ op :=
      fun hop => h (congrArg BitVec.toNat hop)
    have hempty := referenceExecute_unmapped (hne h1) (hne h2) (hne h14) (hne h15)
    rw [executeSteps_unmapped hlow hhigh hrun' hempty]
    simp [fetched, hk]

end

/-! ## The statements -/

theorem decodeCell_of_decodeBytes {w : Byte} {rest : List Byte} {i : Instr}
    (h : decodeBytes (w :: rest) = .ok (i, rest)) : decodeCell w = .ok i := by
  obtain ⟨j, hj, -⟩ := exists_decodeCell w
  obtain rfl : j = i := by simpa [decodeBytes, hj] using h
  exact hj

/-- Settles O45: the cycle is fetch and execute steps, and the execute steps of each opcode are the clause of R93. -/
theorem microStepsRefineTheMacroStep : Obligations.MicroStepsRefineTheMacroStep := by
  intro S s hlow hhigh h
  rw [runWith_eq, clockSteps_cycle hlow h, executeSteps_fetched_eq_macroStep hlow hhigh h]

/-- Settles O37: the meaning of the decoded instruction is the execute steps of its word, and these are the rest of the
cycle after the fetch. -/
theorem cycleRunsTheDecodedInstruction : Obligations.CycleRunsTheDecodedInstruction := by
  intro s i h hdecode
  have hexec := exec_of_decodeCell (decodeCell_of_decodeBytes hdecode) (fetched s)
  rw [runWith_eq, runWith_eq, runWith_eq, hexec, clockSteps_two_of_atBoundary h]
  refine ⟨rfl, congrArg _ (executeSteps_fetched reference h.2).symm, congrArg _ ?_⟩
  exact clockSteps_cycle (by decide) h

/-- Settles O39: the word's row is LDA's and its address field the operand. -/
theorem ldaLoadsTheCell : Obligations.LdaLoadsTheCell := by
  intro addr s hrun
  have heffect := executeSteps_lda (S := 5) (by decide) (by decide) hrun (opcodeOf_cellWord 1 addr)
  rw [addrOf_cellWord] at heffect
  exact congrArg _ heffect

/-- Settles O40: the word's row is ADD's, and addition of bytes is addition modulo 256. -/
theorem addAddsTheCell : Obligations.AddAddsTheCell := by
  intro addr s hrun
  have heffect := executeSteps_add (S := 5) (by decide) (by decide) hrun (opcodeOf_cellWord 2 addr)
  rw [addrOf_cellWord] at heffect
  exact ⟨s.a + s.mem.read addr, BitVec.toNat_add .., congrArg _ heffect⟩

/-- Settles O41: the word's row is OUT's whatever its low four bits, which no signal of the row reads. -/
theorem outEmitsTheAccumulator : Obligations.OutEmitsTheAccumulator := fun low _ hrun =>
  congrArg _ (executeSteps_out (S := 5) (by decide) (by decide) hrun (opcodeOf_cellWord 14 low))

/-- Settles O42: the word's row is HLT's whatever its low four bits. -/
theorem hltSetsHaltAtStepThree : Obligations.HltSetsHaltAtStepThree := fun low _ hrun =>
  congrArg _ (executeSteps_hlt (S := 5) (by decide) hrun (opcodeOf_cellWord 15 low))

/-- Settles O43: each of the twelve rows is empty from step 2 on. -/
theorem unmappedOpcodesDoNothing : Obligations.UnmappedOpcodesDoNothing := by
  intro low s hrun
  have hexec (op : Nibble) (hop : referenceExecute op = []) :
      (.next (executeSteps reference (cellWord op low) s) : Host.Outcome State Fault Refusal) =
        .next { s with ir := cellWord op low, stepCounter := 0 } :=
    congrArg _ (executeSteps_unmapped (S := 5) (by decide) (by decide) hrun (by rwa [opcodeOf_cellWord]))
  exact ⟨hexec 0 rfl, hexec 3 rfl, hexec 4 rfl, hexec 5 rfl, hexec 6 rfl, hexec 7 rfl, hexec 8 rfl, hexec 9 rfl,
    hexec 10 rfl, hexec 11 rfl, hexec 12 rfl, hexec 13 rfl⟩

end Sys2Proof.Machine
end

section
/-! PROOFS. Every row of the opcode table answers a next state, and on a halted machine no instruction word has an
effect (60_exceptions.md R94, R95, R106). -/

namespace Sys2Proof.Machine

/-- On a halted machine no execute step is executed (60_exceptions.md R106). -/
theorem executeSteps_halted {c : Config} {w : Byte} {s : State} (h : s.halt = true) : executeSteps c w s = s :=
  if_neg (by simp [State.isRunning, h])

/-- The meaning of a row is total: the row is an instruction word, run by the sequencer, or a control signal, whose
operation is a function of the state (60_exceptions.md R94). -/
theorem exists_exec_eq_next (i : Instr) (s : State) : ∃ t, exec i s = .next t := by
  rcases exists_row_or_signal i with ⟨r, hr, low, rfl⟩ | ⟨σ, -, rfl⟩
  · exact ⟨_, exec_build hr low s⟩
  · exact ⟨_, exec_toInstr σ s⟩

/-! ## The statements -/

/-- Settles O34: a step is the clock step, and each row of the table is a total function of the state. -/
theorem nothingIsAnError : Obligations.NothingIsAnError :=
  ⟨fun c s => ⟨_, stepWith_eq c s⟩, exists_exec_eq_next⟩

/-- Settles O44: the decoded instruction is the execute steps of its word, and none is executed. -/
theorem haltedMachineExecutesNothing : Obligations.HaltedMachineExecutesNothing := by
  intro w i s hhalt hdecode
  have hcell : decodeCell w = .ok i := hdecode
  rw [exec_of_decodeCell hcell, executeSteps_halted hhalt]

end Sys2Proof.Machine
end

section
/-! PROOFS. Runs of the driving loop, under any matrix and under the reference matrix: the row that is never left
(70_reset_and_hazards.md R111), the length of a run that meets HLT (R118), and the run that never does (R115). -/

namespace Sys2Proof.Machine

open Sys2Proof.Claims

/-! ## Halting under any matrix -/

/-- The driving loop takes clock steps, since these stand on a halted machine, and reports the flag
(44_sequencer.md R81). -/
theorem driveLoop_eq (c : Config) (n : Nat) (s : State) :
    driveLoop c n s =
      if (clockSteps c n s).halt then .halted (clockSteps c n s) else .outOfFuel (clockSteps c n s) := by
  induction n generalizing s with
  | zero => rfl
  | succ n ih =>
    rcases clockStep_cases c s with ⟨hhalt, -⟩ | ⟨hrun, hstep⟩
    · simp only [driveLoop, clockSteps_halted hhalt, hhalt, if_true]
    · simp [driveLoop, hrun, ih, hstep]

/-- Halting within a ceiling is standing halted after that number of clock steps (60_exceptions.md R95). -/
theorem haltsWithin_iff (c : Config) (n : Nat) (s : State) :
    HaltsWithin c n s ↔ (clockSteps c n s).halt = true := by
  rw [HaltsWithin, driveLoop_eq]
  cases (clockSteps c n s).halt <;> simp

/-- A machine that runs after some clock steps ran after each smaller number of them. -/
theorem halt_clockSteps_of_le {c : Config} {s : State} {m n : Nat} (hle : m ≤ n)
    (hrun : (clockSteps c n s).halt = false) : (clockSteps c m s).halt = false := by
  obtain ⟨k, rfl⟩ := Nat.exists_eq_add_of_le hle
  rw [← Bool.not_eq_true]
  intro hhalt
  rw [clockSteps_add, clockSteps_halted hhalt, hhalt] at hrun
  contradiction

/-- A step whose list holds neither IR_IN nor HALT leaves IR and the halt flag (10_state.md R16, R19). -/
theorem clockStep_keeps_ir_halt {c : Config} {s : State} (hrun : s.halt = false)
    (hir : Signal.irIn ∉ currentList c s) (hhalt : Signal.halt ∉ currentList c s) :
    (clockStep c s).ir = s.ir ∧ (clockStep c s).halt = false := by
  constructor
  · rw [clockStep_running hrun]
    exact dispatchList_ir_of_not_mem hir s
  · rw [← Bool.not_eq_true, clockStep_halt]
    simp [hrun, hhalt]

/-- A row without IR_IN and HALT is never left (70_reset_and_hazards.md R111). -/
theorem clockSteps_keeps_ir_halt {c : Config} {s : State} (hrun : s.halt = false)
    (hrow : ∀ k, Signal.irIn ∉ c.matrix s.opcode k ∧ Signal.halt ∉ c.matrix s.opcode k) (n : Nat) :
    (clockSteps c n s).ir = s.ir ∧ (clockSteps c n s).halt = false := by
  induction n generalizing s with
  | zero => exact ⟨rfl, hrun⟩
  | succ n ih =>
    obtain ⟨hir, hrun'⟩ := clockStep_keeps_ir_halt hrun (hrow s.stepCounter).1 (hrow s.stepCounter).2
    have hop : (clockStep c s).opcode = s.opcode := congrArg opcodeOf hir
    obtain ⟨hir', hrun''⟩ := ih hrun' (hop ▸ hrow)
    exact ⟨hir'.trans hir, hrun''⟩

/-! ## Cycles of the reference matrix -/

theorem macroStep_pc (s : State) : (macroStep s).pc = s.pc + 1 := by
  simp only [macroStep]
  split <;> rfl

theorem macroStep_mem (s : State) : (macroStep s).mem = s.mem := by
  simp only [macroStep]
  split <;> rfl

/-- A cycle that is not HLT's ends at a boundary. -/
theorem macroStep_atBoundary {s : State} (h : s.atBoundary) (hop : opcodeOf (s.mem.read s.pc) ≠ 15) :
    (macroStep s).atBoundary := by
  simp only [macroStep]
  split
  next => exact h
  next => exact h
  next => exact h
  next hhlt => exact absurd (BitVec.eq_of_toNat_eq hhlt) hop
  next => exact h

section
variable {S n : Nat} {s : State}

theorem clockSteps_cycle_eq_macroStep (hlow : 5 ≤ S) (hhigh : S ≤ 8) (h : s.atBoundary) :
    clockSteps (referenceWith S) S s = macroStep s :=
  (clockSteps_cycle hlow h).trans (executeSteps_fetched_eq_macroStep hlow hhigh h)

/-- While the cells from PC on hold no HLT word, each cycle goes from a boundary to the boundary at the next cell, in
an unchanged memory. -/
theorem clockSteps_cycles (hlow : 5 ≤ S) (hhigh : S ≤ 8) (h : s.atBoundary)
    (hcells : ∀ j, j < n → opcodeOf (s.mem.read (s.pc + BitVec.ofNat 4 j)) ≠ 15) :
    (clockSteps (referenceWith S) (n * S) s).atBoundary ∧
      (clockSteps (referenceWith S) (n * S) s).mem = s.mem ∧
      (clockSteps (referenceWith S) (n * S) s).pc = s.pc + BitVec.ofNat 4 n := by
  induction n with
  | zero => simpa using h
  | succ n ih =>
    obtain ⟨hboundary, hmem, hpc⟩ := ih fun j hj => hcells j (by omega)
    rw [Nat.succ_mul, clockSteps_add, clockSteps_cycle_eq_macroStep hlow hhigh hboundary]
    refine ⟨macroStep_atBoundary hboundary ?_, (macroStep_mem _).trans hmem, ?_⟩
    · rw [hmem, hpc]
      exact hcells n (by omega)
    · rw [macroStep_pc, hpc, BitVec.ofNat_add, BitVec.add_assoc]
      rfl

/-- The third micro-step from a boundary at a HLT word sets the flag (45_instructions.md R91). -/
theorem clockSteps_three_of_hlt (hlow : 5 ≤ S) (h : s.atBoundary) (hop : opcodeOf (s.mem.read s.pc) = 15) :
    clockSteps (referenceWith S) 3 s = { fetched s with halt := true, stepCounter := 3 } := by
  have hstop : clockStep reference (fetched s) = { fetched s with halt := true, stepCounter := 3 } :=
    ReferenceStep.clockStep_eq (.hltStop hop rfl) h.2
  rw [clockSteps_add _ 2 1, clockSteps_two_referenceWith hlow h, clockSteps_succ, clockSteps_zero,
    clockStep_referenceWith hlow (by simp [fetched]), hstop]

/-- From a boundary the machine runs at least until the fetch is over. -/
theorem halt_clockSteps_of_lt_three (hlow : 5 ≤ S) (h : s.atBoundary) {m : Nat} (hm : m < 3) :
    (clockSteps (referenceWith S) m s).halt = false := by
  apply halt_clockSteps_of_le (Nat.le_of_lt_succ hm)
  rw [clockSteps_two_referenceWith hlow h]
  exact h.2

end

/-! ## The statements -/

/-- Settles O35: no step of the row loads IR, so the row stays selected, and none sets the flag. -/
theorem rowWithoutFetchNeverLeaves : Obligations.RowWithoutFetchNeverLeaves :=
  fun c s hrun hrow n => ⟨_, runWith_eq c n s, clockSteps_keeps_ir_halt hrun hrow n⟩

/-- Settles O46: the machine runs until the fetch is over, the third step is HLT's, and a halted machine stands. -/
theorem hltEndsTheRunAfterThreeSteps : Obligations.HltEndsTheRunAfterThreeSteps := by
  intro S s hlow _ h hop
  have hthree := clockSteps_three_of_hlt hlow h hop
  refine ⟨fun n hn => ⟨_, runWith_eq _ n s, halt_clockSteps_of_lt_three hlow h hn⟩, fun n => ?_, ?_⟩
  · rw [runWith_eq, clockSteps_add, hthree, clockSteps_halted rfl]
    rfl
  · rw [haltsWithin_iff, hthree]

/-- Settles O52: `n` cycles lead to the boundary at the HLT word, whose third step is the first to set the flag. -/
theorem runHaltsAfterNTimesSPlus3 : Obligations.RunHaltsAfterNTimesSPlus3 := by
  intro S n s hlow hhigh h hcells hhlt
  obtain ⟨hboundary, hmem, hpc⟩ := clockSteps_cycles hlow hhigh h hcells
  have hop : opcodeOf ((clockSteps (referenceWith S) (n * S) s).mem.read
      (clockSteps (referenceWith S) (n * S) s).pc) = 15 := by rwa [hmem, hpc]
  refine ⟨fun m hm => ⟨_, runWith_eq _ m s, ?_⟩, _, runWith_eq _ _ s, ?_⟩
  · apply halt_clockSteps_of_le (Nat.le_of_lt_succ hm)
    rw [clockSteps_add]
    exact halt_clockSteps_of_lt_three hlow hboundary (by decide)
  · rw [clockSteps_add, clockSteps_three_of_hlt hlow hboundary hop]
    refine ⟨rfl, hop, rfl, ?_⟩
    rw [BitVec.ofNat_add, ← BitVec.add_assoc, ← hpc]
    rfl

/-- Settles O51: after any number of cycles the machine runs, so it runs after any number of steps. -/
theorem withoutHltItNeverHalts : Obligations.WithoutHltItNeverHalts := by
  intro s h hno n
  obtain ⟨⟨-, hcycles⟩, -⟩ := clockSteps_cycles (S := 5) (n := n) (by decide) (by decide) h fun _ _ => hno _
  have hrun : (clockSteps reference n s).halt = false := halt_clockSteps_of_le (by omega) hcycles
  exact ⟨⟨_, runWith_eq reference n s, hrun⟩, by simp [haltsWithin_iff, hrun]⟩

/-! ## A step without HLT -/

/-- From the end of the fetch on, a memory without HLT words leaves no HLT word in IR. -/
theorem opcode_ne_hlt {s : State} (hinv : ReferenceInv s) (hno : s.noHlt) (hk : 2 ≤ s.stepCounter.toNat) :
    s.opcode ≠ 15 := by
  rw [State.opcode, hinv.fetched hk]
  exact hno _

/-- Settles O59: memory is not written, and only a step 2 with HLT's word in IR would set the flag. -/
theorem stepKeepsAMachineWithoutHltRunning : Obligations.StepKeepsAMachineWithoutHltRunning := by
  intro s hinv hno hrun
  have h : ReferenceStep s (clockStep reference s) := clockStep_running hrun ▸ referenceStep_microStep s
  refine ⟨_, step_eq s, stepKeepsTheReferenceState s _ hinv (step_eq s), ?noHlt, ?running⟩
  case noHlt =>
    rw [State.noHlt, h.mem_eq]
    exact hno
  case running =>
    by_contra hhalt
    obtain ⟨⟨hop, hk⟩, -⟩ := h.writesHalt (by simpa [hrun] using hhalt)
    exact opcode_ne_hlt hinv hno (by simp [hk]) hop

end Sys2Proof.Machine
end

section
/-! PROOFS. The loaded image (70_reset_and_hazards.md R107), the loader port (R117) and the discipline of the
reference matrix (R120). -/

namespace Sys2Proof.Machine

open Sys2Proof.Claims

/-- After loading, a cell reads as the last value the loader gave it, or as before (42_ram.md R66). -/
theorem read_loadImage (image : List (Nibble × Byte)) (s : State) (a : Nibble) :
    (loadImage image s).mem.read a = (lastLoaded image a).getD (s.mem.read a) := by
  induction image generalizing s with
  | nil => rfl
  | cons e rest ih =>
    obtain ⟨k, v⟩ := e
    rw [loadImage, ih, setCell_eq, lastLoaded]
    cases lastLoaded rest a with
    | some w => rfl
    | none =>
      by_cases hk : k = a
      · simp [hk]
      · simp [hk, read_write_other _ _ (Ne.symm hk)]

/-- Every list of M_ref is ordered (30_encoding.md R50, 70_reset_and_hazards.md R120). -/
theorem orderedList_referenceMatrix (op : Nibble) (k : StepIndex) : orderedList (referenceMatrix op k) = true := by
  revert op k
  decide

/-! ## The statements -/

/-- Settles O56: loading writes memory alone, keeps its form, and leaves in each cell the last value given. -/
theorem launchStateHoldsTheImage : Obligations.LaunchStateHoldsTheImage := fun image =>
  ⟨_, loadImage_eq image State.reset, loadImage_wf image reset_wf, read_loadImage image State.reset⟩

/-- Settles O6: the first two lists of a row are the fetch lists, and all are ordered, whatever the step count. -/
theorem referenceMatrixIsDisciplined : Obligations.ReferenceMatrixIsDisciplined := by
  intro S hlow hhigh
  refine ⟨by simp [Config.wf, referenceWith, hlow, hhigh], ?_⟩
  simp only [Config.disciplined, List.all_eq_true, Bool.and_eq_true, decide_eq_true_eq]
  exact fun op _ => ⟨⟨rfl, rfl⟩, fun k _ => orderedList_referenceMatrix _ _⟩

/-- Settles O58: the two cases are the branches of the session's edge. -/
theorem loaderPortRefusedDuringARun : Obligations.LoaderPortRefusedDuringARun := by
  intro c p x
  constructor
  · rintro ⟨hrst, hld, hstarted⟩
    simp [Session.edge, hrst, hld, hstarted]
  · intro hallowed
    have hguard : ¬ (!p.rst && p.ldEn && x.started) = true := by simpa [and_assoc] using hallowed
    exact ⟨_, if_neg hguard, by simp⟩

end Sys2Proof.Machine
end
